-- ==== Sys2Proof/Word.lean ====
section
/-! DEFINITION. The word types of the BaseN codec block (spec/00_scope.md R8, R9): an 8-bit unit (a payload
byte or a symbol code) and a 32-bit host-port register. -/

namespace Sys2Proof

/-- One buffer unit, `UNITW` = 8 bits: a payload byte or a symbol code (R8, R9). -/
abbrev Byte := BitVec 8

/-- One host-port register, `REGW` = 32 bits (R8). -/
abbrev Word := BitVec 32

end Sys2Proof
end

