-- ==== Sys2Proof/Syntax.lean ====
section
/-! DEFINITION. The ten commands of the block (spec/30_encoding.md R82; spec/opcode_table.json, one constructor
a row) with their configuration operands ASEL and PAD (R83, R84, R90). No command has another operand: the data
are the units IN[0..IN_LEN) (R90). -/

namespace Sys2Proof

/-- The alphabet select field ASEL by its names (R83). Its fourth value, 3, has no name and no command. -/
inductive ASel where
  /-- ASEL = 0: the default preset of the scheme. -/
  | std
  /-- ASEL = 1: the Base-32 "Hex" preset. -/
  | hex
  /-- ASEL = 2: the custom alphabet in the scheme's slot. -/
  | cus
deriving DecidableEq, Repr

/-- The ten commands (R82). Base-16 and the ALOAD commands accept one ASEL value only, so they carry none. -/
inductive Instr where
  /-- `B16ENC`, OP 1 (R120). -/
  | b16enc
  /-- `B16DEC`, OP 2 (R121). -/
  | b16dec
  /-- `B32ENC`, OP 3, with ASEL and the padding flag PAD (R131). -/
  | b32enc (asel : ASel) (pad : Bool)
  /-- `B32DEC`, OP 4, with ASEL (R133). -/
  | b32dec (asel : ASel)
  /-- `B58ENC`, OP 5, with ASEL (R155). -/
  | b58enc (asel : ASel)
  /-- `B58DEC`, OP 6, with ASEL (R156). -/
  | b58dec (asel : ASel)
  /-- `B58CENC`, OP 7, with ASEL (R172). -/
  | b58cenc (asel : ASel)
  /-- `B58CDEC`, OP 8, with ASEL (R173). -/
  | b58cdec (asel : ASel)
  /-- `ALOAD32`, OP 9 (R108). -/
  | aload32
  /-- `ALOAD58`, OP 10 (R109). -/
  | aload58
deriving DecidableEq, Repr

end Sys2Proof
end

