-- ==== Sys2Proof/WellFormed.lean ====
section
/-! DEFINITION. Which instruction terms stand for a legal command word (spec/30_encoding.md R83, R91): there is
no "Hex" alphabet for Base-58, so the four Base-58 commands take ASEL 0 or 2 only. -/

namespace Sys2Proof

/-- The Base-58 column of R83: `STD` and `CUS` are alphabets, `HEX` is illegal. -/
def ASel.base58 : ASel → Bool
  | .std => true
  | .hex => false
  | .cus => true

/-- An instruction is well formed when some command word decodes to it (R91). -/
def Instr.wf : Instr → Bool
  | .b16enc => true
  | .b16dec => true
  | .b32enc _ _ => true
  | .b32dec _ => true
  | .b58enc asel => asel.base58
  | .b58dec asel => asel.base58
  | .b58cenc asel => asel.base58
  | .b58cdec asel => asel.base58
  | .aload32 => true
  | .aload58 => true

end Sys2Proof
end

