-- ==== Sys2Proof/Decode.lean ====
section
/-! DEFINITION. The command word (spec/30_encoding.md R80, R81): its fields, the decoder (R91), total on all
2^32 words, and the encoder (R81 to R84, R86). -/

namespace Sys2Proof

/-! The fields of a command word (R81). -/

/-- RSVH, bits 31:8, reserved, must be 0. -/
def fieldRsvh (w : Word) : BitVec 24 := w.extractLsb' 8 24

/-- OP, bits 7:4 (R82). -/
def fieldOp (w : Word) : BitVec 4 := w.extractLsb' 4 4

/-- ASEL, bits 3:2 (R83). -/
def fieldAsel (w : Word) : BitVec 2 := w.extractLsb' 2 2

/-- PAD, bit 1 (R84). -/
def fieldPad (w : Word) : Bool := w.getLsbD 1

/-- RSV0, bit 0, reserved, must be 0. -/
def fieldRsv0 (w : Word) : Bool := w.getLsbD 0

/-- Why a word is ILLEGAL (R87 names these causes; the block records none of them). -/
inductive Reject where
  /-- RSVH is not 0. -/
  | reservedHigh
  /-- RSV0 is not 0. -/
  | reservedBit0
  /-- OP is 0 or 11 to 15. -/
  | reservedOp
  /-- R91 does not accept this ASEL for the OP. -/
  | aselNotAccepted
  /-- R91 does not accept PAD = 1 for the OP. -/
  | padNotAccepted
deriving DecidableEq, Repr

/-- The value of the ASEL field that a name stands for (R83). -/
def ASel.field : ASel → BitVec 2
  | .std => 0
  | .hex => 1
  | .cus => 2

/-- The name of an ASEL value; 3 has none (R83). -/
def ASel.ofField (a : BitVec 2) : Option ASel :=
  if a = 0 then some .std else if a = 1 then some .hex else if a = 2 then some .cus else none

/-- A command for which R91 accepts PAD = 0 only. -/
def requirePad0 (pad : Bool) (i : Instr) : Except Reject Instr :=
  if pad then .error .padNotAccepted else .ok i

/-- A command for which R91 accepts one ASEL value and PAD = 0 (OP 1, 2, 9, 10). -/
def oneAlphabet (accepted asel : BitVec 2) (pad : Bool) (i : Instr) : Except Reject Instr :=
  if asel = accepted then requirePad0 pad i else .error .aselNotAccepted

/-- A Base-32 command: R91 accepts ASEL in 0, 1, 2 (OP 3, 4). -/
def base32Alphabet (asel : BitVec 2) (k : ASel → Except Reject Instr) : Except Reject Instr :=
  match ASel.ofField asel with
  | some a => k a
  | none => .error .aselNotAccepted

/-- A Base-58 command: R91 accepts ASEL in 0, 2 and PAD = 0 (OP 5 to 8). -/
def base58Alphabet (asel : BitVec 2) (pad : Bool) (mk : ASel → Instr) : Except Reject Instr :=
  match ASel.ofField asel with
  | some a => if a.base58 then requirePad0 pad (mk a) else .error .aselNotAccepted
  | none => .error .aselNotAccepted

/-- The case on OP of R91. -/
def decodeOp (op : Nat) (asel : BitVec 2) (pad : Bool) : Except Reject Instr :=
  match op with
  | 1 => oneAlphabet 0 asel pad .b16enc
  | 2 => oneAlphabet 0 asel pad .b16dec
  | 3 => base32Alphabet asel fun a => .ok (.b32enc a pad)
  | 4 => base32Alphabet asel fun a => requirePad0 pad (.b32dec a)
  | 5 => base58Alphabet asel pad .b58enc
  | 6 => base58Alphabet asel pad .b58dec
  | 7 => base58Alphabet asel pad .b58cenc
  | 8 => base58Alphabet asel pad .b58cdec
  | 9 => oneAlphabet 2 asel pad .aload32
  | 10 => oneAlphabet 2 asel pad .aload58
  | _ => .error .reservedOp

/-- The decoder (R91), total on all words: a command, or the reason the word is ILLEGAL. -/
def decode (w : Word) : Except Reject Instr :=
  if fieldRsvh w ≠ 0 then .error .reservedHigh
  else if fieldRsv0 w then .error .reservedBit0
  else decodeOp (fieldOp w).toNat (fieldAsel w) (fieldPad w)

/-! The encoder. -/

/-- The operation code of a command (R82). -/
def Instr.opcode : Instr → BitVec 4
  | .b16enc => 1
  | .b16dec => 2
  | .b32enc _ _ => 3
  | .b32dec _ => 4
  | .b58enc _ => 5
  | .b58dec _ => 6
  | .b58cenc _ => 7
  | .b58cdec _ => 8
  | .aload32 => 9
  | .aload58 => 10

/-- The ASEL field of a command: Base-16 takes 0, the ALOAD commands take 2 (R83). -/
def Instr.asel : Instr → BitVec 2
  | .b16enc => 0
  | .b16dec => 0
  | .b32enc a _ => a.field
  | .b32dec a => a.field
  | .b58enc a => a.field
  | .b58dec a => a.field
  | .b58cenc a => a.field
  | .b58cdec a => a.field
  | .aload32 => 2
  | .aload58 => 2

/-- The PAD field of a command: 0 but for `B32ENC` (R84). -/
def Instr.pad : Instr → Bool
  | .b16enc => false
  | .b16dec => false
  | .b32enc _ pad => pad
  | .b32dec _ => false
  | .b58enc _ => false
  | .b58dec _ => false
  | .b58cenc _ => false
  | .b58cdec _ => false
  | .aload32 => false
  | .aload58 => false

/-- The word with these fields and zeros in RSVH and RSV0 (R81). -/
def wordOf (op : BitVec 4) (asel : BitVec 2) (pad : Bool) : Word :=
  0#24 ++ op ++ asel ++ BitVec.ofBool pad ++ 0#1

/-- The command word of an instruction (R81 to R84, R86). -/
def encode (i : Instr) : Word := wordOf i.opcode i.asel i.pad

/-! The host's question about the opcode table. -/

/-- The command word whose bits are the low `nbits` bits of `w`, with zeros above them, up to the 32 bits of the
one word a command has (R80). -/
def tableWord (nbits w : Nat) : Word := BitVec.ofNat 32 (w % 2 ^ nbits)

/-- What the decoder reads from a row's bits, numbered as spec/opcode_table.json numbers them: `none` for a
reserved word, and for bits that do not fit the one 32-bit word of a command. -/
def decodeTableWord (nbits w : Nat) : Option Instr :=
  if w % 2 ^ nbits < 2 ^ 32 then
    match decode (tableWord nbits w) with
    | .ok i => some i
    | .error _ => none
  else none

end Sys2Proof
end

