-- ==== Sys2Proof/Config.lean ====
section
/-! DEFINITION. What the spec leaves open: the parameters of the block (spec/00_scope.md R8) and the values it
calls unspecified (spec/93_implementation_defined.md U1 to U4). Each is an uninterpreted constant: it has no
body, so nothing can be proved of it beyond the bounds the spec states. -/

namespace Sys2Proof.Config

/-- The free choice behind `CAP`. -/
opaque capSeed : Nat

/-- `CAP`, the number of units of IN and of OUT: OPEN in the spec, any natural number with
`58 <= CAP < 2^32` (R8, D3). Every such number is `CAP` for some `capSeed`. DESIGN CHOICE of the form, safe
(log entry 1). -/
def CAP : Nat := capSeed % (2 ^ 32 - 58) + 58

/-- The free choice behind `HLEN`. -/
opaque hlenSeed : Nat

/-- `HLEN`, the digest length in bytes: OPEN in the spec, any natural number at least 4 (R8, R171). -/
def HLEN : Nat := hlenSeed + 4

/-- The digest of a message as the hash collaborator answers it (R171): total, deterministic, `HLEN` bytes.
That it answers every message is the spec's own assumption (R244, U6), unsafe for liveness (log entry 2). -/
opaque digest : List Byte → Vector Byte HLEN

/-- `H`, the hash collaborator as a function on byte sequences (R11, R171). -/
def H (msg : List Byte) : List Byte := (digest msg).toList

/-- What unit `i` of IN holds after reset number `epoch`, until it is written (R28, R34, U3): a free value,
the same at every read (log entry 3). -/
opaque inPowerOn : (epoch i : Nat) → Byte

/-- What SLOT32.tab holds after reset number `epoch` (R34): a free value that nothing reads (log entry 6). -/
opaque slot32PowerOn : (epoch : Nat) → Vector Byte 32

/-- What SLOT58.tab holds after reset number `epoch` (R34): a free value that nothing reads (log entry 6). -/
opaque slot58PowerOn : (epoch : Nat) → Vector Byte 58

/-- What a read of a buffer unit that holds no specified value returns (U1, U2, U4): a free value for each
host access, so two reads need not agree (log entries 4 and 5). -/
opaque freeUnit : (access : Nat) → Byte

/-- What a read of ERR or OUT_LEN returns while PHASE = BUSY (R59, U2): a free value for each host access
(log entry 5). -/
opaque freeReg : (access : Nat) → Word

/-- How many steps pass between an accepted CMD write and its engine step (R244, R245): free, and finite by
the spec's fairness assumption, which is unsafe for liveness (log entry 7). -/
opaque engineDelay : (access : Nat) → Nat

end Sys2Proof.Config
end

