-- ==== Sys2Proof/Machine/State.lean ====
section
/-! DEFINITION. The state of one block instance (spec/10_state.md R20), with the host's pending accesses and
the values it has read beside it, the faults and refusals, and the state after reset (R34). -/

namespace Sys2Proof.Machine

/-- PHASE (R26): the only sequencing state. -/
inductive Phase where
  /-- No command is in flight. -/
  | idle
  /-- The command in CMD is in flight. -/
  | busy
deriving DecidableEq, Repr

/-- A buffer, IN or OUT (R28, R29): the units that hold a specified value, as (index, unit) pairs with strictly
rising indices. An unlisted unit holds no value the spec specifies (R34), so no entry can equal what an unlisted
index reads as, and rising indices are the whole canonical form (log entries 3 and 4). -/
abbrev Memory := List Host.Cell

/-- The canonical form of a buffer: indices strictly rising. -/
abbrev Memory.wf (m : Memory) : Prop := List.Pairwise (fun c d => c.1 < d.1) m

/-- A custom alphabet slot of `n` symbols (R20, R30): the table and its valid bit. -/
structure Slot (n : Nat) where
  /-- The table: entry `k` is the symbol code of index `k`. -/
  tab : Vector Byte n
  /-- The valid bit: a slot with `valid = false` is empty and its table is read by nothing. -/
  valid : Bool
deriving DecidableEq, Repr

/-- The five operations of the host port (spec/20_memory.md R50). Indices are unit and register indices, not bus
addresses (R51, R58), so they are natural numbers (log entry 14). -/
inductive HostOp where
  /-- `RD reg`: read register `REG[reg]`. -/
  | rd (reg : Nat)
  /-- `WR reg, v`: write register `REG[reg]`. -/
  | wr (reg : Nat) (v : Word)
  /-- `RIN i`: read unit `IN[i]`. -/
  | rin (i : Nat)
  /-- `WIN i, v`: write unit `IN[i]`. -/
  | win (i : Nat) (v : Byte)
  /-- `ROUT i`: read unit `OUT[i]`. -/
  | rout (i : Nat)
deriving DecidableEq, Repr

/-- One item of the outside world's input: a line of a host program (spec/30_encoding.md R93, R94) or the reset
input (spec/70_reset_and_hazards.md R230). The pseudo-lines `LDIN` and `RUN` expand to these before they are
queued (Machine/HostProgram.lean). -/
inductive HostLine where
  /-- One access of the host port (R93). -/
  | access (op : HostOp)
  /-- `WAIT`: read STATUS until its bit 0 is 0 (R94). -/
  | wait
  /-- `RDOUT`: read OUT_LEN, then that many units of OUT (R94). -/
  | rdout
  /-- The reset input is asserted (R230). -/
  | reset
deriving DecidableEq, Repr

/-- The value a host read returned (R50): 32 bits of a register or 8 bits of a unit. -/
inductive Reply where
  /-- The answer to `RD`. -/
  | reg (v : Word)
  /-- The answer to `RIN` or `ROUT`. -/
  | unit (v : Byte)
deriving DecidableEq, Repr

/-- The state. The fields down to `slot58` are all the state the spec gives one instance (R20); the rest are the
model's own. STATUS is not stored: it is a view (R20, R23; Machine/Flags.lean). -/
structure State where
  /-- PHASE (R26). -/
  phase : Phase
  /-- CMD, REG index 0: the last accepted command word, all 32 bits (R22). -/
  cmd : Word
  /-- ERR, REG index 2: bits 2:0, the code of the last completed command; bits 31:3 read as 0 (R24; log entry 17). -/
  err : BitVec 3
  /-- IN_LEN, REG index 3 (R25). -/
  inLen : Word
  /-- OUT_LEN, REG index 4 (R25). -/
  outLen : Word
  /-- IN: the units written since reset (R28; log entry 3). -/
  inBuf : Memory
  /-- OUT: the units that hold output of the last completed command (R29; log entry 4). -/
  outBuf : Memory
  /-- SLOT32 (R30). -/
  slot32 : Slot 32
  /-- SLOT58 (R30). -/
  slot58 : Slot 58
  /-- Model's own: steps left before the engine step of the command in flight (log entry 7). -/
  delay : Nat
  /-- Model's own: host accesses served so far; indexes the free values (log entry 5). -/
  fresh : Nat
  /-- Model's own: resets so far; indexes the free reset contents (log entry 10). -/
  epoch : Nat
  /-- Model's own: what the outside world does next, the oldest first (log entry 8). -/
  port : List HostLine
  /-- Model's own: what the host has read, the newest first (log entry 8). -/
  replies : List Reply
deriving DecidableEq, Repr

/-- The five kinds of error a command can end with (spec/60_exceptions.md R201). An error is a result of the
command, not a fault of the machine. -/
inductive ErrKind where
  /-- `FormatError`: a symbol outside the alphabet, or an invalid length. -/
  | format
  /-- `ChecksumError`: the recomputed checksum differs. -/
  | checksum
  /-- `ConfigurationError`: a bad alphabet, or an empty slot. -/
  | config
  /-- The word in CMD is no command. -/
  | illegal
  /-- The result is longer than CAP units. -/
  | capacity
deriving DecidableEq, Repr

/-- Why a step stops with a fault. It has no constructor: the spec gives the block no fault, since an error is a
result in ERR (spec/60_exceptions.md R200) and no host access raises anything (spec/20_memory.md R65). Nothing
raises one; that is exact, neither safe nor unsafe (log entry 23). -/
inductive Fault where
deriving DecidableEq, Repr

/-- Why a step is refused. -/
inductive Refusal where
  /-- The instruction has no meaning yet. Raised by the refused arms of Machine/Dispatch.lean only (there is none
  left); safe. -/
  | notModelled (mnemonic : String)
deriving DecidableEq, Repr

/-- The machine right after reset (R34, R230): PHASE = IDLE, CMD, ERR, IN_LEN and OUT_LEN 0, both slots empty,
buffers and tables unspecified. The model's own fields start at 0 and empty (DESIGN CHOICE, log entries 5 and 7
to 10). -/
def State.reset : State where
  phase := .idle
  cmd := 0
  err := 0
  inLen := 0
  outLen := 0
  inBuf := []
  outBuf := []
  slot32 := { tab := Config.slot32PowerOn 0, valid := false }
  slot58 := { tab := Config.slot58PowerOn 0, valid := false }
  delay := 0
  fresh := 0
  epoch := 0
  port := []
  replies := []

end Sys2Proof.Machine
end

