-- ==== Sys2Proof/Machine/Ops.lean ====
section
/-! DEFINITION. The named operations over the buffers, and the four ways a command ends
(spec/10_state.md R27): with an output, with a loaded table for either slot, or with an error. -/

namespace Sys2Proof.Machine

/-! Buffers. -/

/-- The unit listed at index `a`, if one is listed. -/
def Memory.read? : Memory → Nat → Option Byte
  | [], _ => none
  | (b, v) :: rest, a => if a = b then some v else Memory.read? rest a

/-- Store unit `v` at index `a`, keeping the indices strictly rising. -/
def Memory.write : Memory → Nat → Byte → Memory
  | [], a, v => [(a, v)]
  | (b, u) :: rest, a, v =>
    if a < b then (a, v) :: (b, u) :: rest
    else if a = b then (a, v) :: rest
    else (b, u) :: Memory.write rest a v

/-- The buffer that holds the sequence `us` at indices `i`, `i + 1`, … and nothing else. -/
def Memory.ofUnitsFrom (i : Nat) : List Byte → Memory
  | [] => []
  | u :: us => (i, u) :: Memory.ofUnitsFrom (i + 1) us

/-- The buffer that holds exactly the sequence `us`, its first unit at index 0 (R53). -/
def Memory.ofUnits (us : List Byte) : Memory := Memory.ofUnitsFrom 0 us

/-- Unit `IN[i]` (R28): the unit written there since reset, else the free value it holds since reset (U3; log
entry 3). -/
def inUnit (s : State) (i : Nat) : Byte := (s.inBuf.read? i).getD (Config.inPowerOn s.epoch i)

/-! How a command ends (R27). In every case PHASE becomes IDLE and CMD, IN, IN_LEN stay; a unit of OUT that
does not hold output of this command is unspecified afterwards (R27, R29, R206), so it is not listed (log
entry 4). -/

/-- The code of an error kind in ERR (R201). -/
def ErrKind.code : ErrKind → BitVec 3
  | .format => 1
  | .checksum => 2
  | .config => 3
  | .illegal => 4
  | .capacity => 5

/-- Error entry, `raise E` (spec/60_exceptions.md R206), the block's one exception entry: OUT_LEN is 0, ERR holds
the code, PHASE is IDLE. Nothing is saved and nothing is vectored, and there is no return (R208): the next command
starts like any other. -/
def State.raise (e : ErrKind) (s : State) : State :=
  { s with phase := .idle, err := e.code, outLen := 0, outBuf := [] }

/-- The `ok(out)` arm of the engine step (R27, R219): OUT holds `out`, OUT_LEN its length, ERR is 0. -/
def State.withOutput (out : List Byte) (s : State) : State :=
  { s with phase := .idle, err := 0, outLen := BitVec.ofNat 32 out.length, outBuf := Memory.ofUnits out }

/-- The `loaded32(tab)` arm of the engine step (R27): SLOT32 holds `tab` and is valid, OUT_LEN and ERR are 0. -/
def State.withSlot32 (tab : Vector Byte 32) (s : State) : State :=
  { s with phase := .idle, err := 0, outLen := 0, outBuf := [], slot32 := { tab := tab, valid := true } }

/-- The `loaded58(tab)` arm of the engine step (R27): SLOT58 holds `tab` and is valid, OUT_LEN and ERR are 0. -/
def State.withSlot58 (tab : Vector Byte 58) (s : State) : State :=
  { s with phase := .idle, err := 0, outLen := 0, outBuf := [], slot58 := { tab := tab, valid := true } }

/-- End a codec command with its result: an output sequence or an error (R27). -/
def State.finish (r : Except ErrKind (List Byte)) (s : State) : State :=
  match r with
  | .ok out => s.withOutput out
  | .error e => s.raise e

/-- End `ALOAD32` with its result: a checked table or an error (R27, R108). -/
def State.finishLoad32 (r : Except ErrKind (Vector Byte 32)) (s : State) : State :=
  match r with
  | .ok tab => s.withSlot32 tab
  | .error e => s.raise e

/-- End `ALOAD58` with its result: a checked table or an error (R27, R109). -/
def State.finishLoad58 (r : Except ErrKind (Vector Byte 58)) (s : State) : State :=
  match r with
  | .ok tab => s.withSlot58 tab
  | .error e => s.raise e

end Sys2Proof.Machine
end

