-- ==== Sys2Proof/Machine/Alphabet.lean ====
section
/-! DEFINITION. The alphabet registry (spec/40_alphabet.md R100 to R107, R112): the padding symbol, the four preset
tables, and lookup in either direction. -/

namespace Sys2Proof.Machine

/-- The Base-32 padding symbol, `=` (R8, R112). It belongs to no alphabet table. -/
def padSymbol : Byte := 0x3D

/-! The presets. B32STD and the order of B58STD are marked by the spec as general knowledge (R102, R104, G1, G2;
log entry 12). -/

/-- HEX16, `0123456789abcdef` (R101). -/
def HEX16 : List Byte :=
  [0x30, 0x31, 0x32, 0x33, 0x34, 0x35, 0x36, 0x37] ++
  [0x38, 0x39, 0x61, 0x62, 0x63, 0x64, 0x65, 0x66]

/-- B32STD, `ABCDEFGHIJKLMNOPQRSTUVWXYZ234567` (R102). -/
def B32STD : List Byte :=
  [0x41, 0x42, 0x43, 0x44, 0x45, 0x46, 0x47, 0x48] ++
  [0x49, 0x4A, 0x4B, 0x4C, 0x4D, 0x4E, 0x4F, 0x50] ++
  [0x51, 0x52, 0x53, 0x54, 0x55, 0x56, 0x57, 0x58] ++
  [0x59, 0x5A, 0x32, 0x33, 0x34, 0x35, 0x36, 0x37]

/-- B32HEX, `0123456789ABCDEFGHIJKLMNOPQRSTUV` (R103). -/
def B32HEX : List Byte :=
  [0x30, 0x31, 0x32, 0x33, 0x34, 0x35, 0x36, 0x37] ++
  [0x38, 0x39, 0x41, 0x42, 0x43, 0x44, 0x45, 0x46] ++
  [0x47, 0x48, 0x49, 0x4A, 0x4B, 0x4C, 0x4D, 0x4E] ++
  [0x4F, 0x50, 0x51, 0x52, 0x53, 0x54, 0x55, 0x56]

/-- B58STD, `123456789ABCDEFGHJKLMNPQRSTUVWXYZabcdefghijkmnopqrstuvwxyz` (R104). -/
def B58STD : List Byte :=
  [0x31, 0x32, 0x33, 0x34, 0x35, 0x36, 0x37, 0x38] ++
  [0x39, 0x41, 0x42, 0x43, 0x44, 0x45, 0x46, 0x47] ++
  [0x48, 0x4A, 0x4B, 0x4C, 0x4D, 0x4E, 0x50, 0x51] ++
  [0x52, 0x53, 0x54, 0x55, 0x56, 0x57, 0x58, 0x59] ++
  [0x5A, 0x61, 0x62, 0x63, 0x64, 0x65, 0x66, 0x67] ++
  [0x68, 0x69, 0x6A, 0x6B, 0x6D, 0x6E, 0x6F, 0x70] ++
  [0x71, 0x72, 0x73, 0x74, 0x75, 0x76, 0x77, 0x78] ++
  [0x79, 0x7A]

/-! Lookup. -/

/-- `sym(A, k)` = `A[k]`, the symbol of index `k` (R100). Every caller gives an index below the alphabet's size, so
the 0 that stands for a missing entry is never a result (log entry 20). -/
def sym (A : List Byte) (k : Nat) : Byte := A.getD k 0

/-- `idx(A, c)`, the index of code `c` in `A`, or none (R106). In an alphabet, whose codes are pairwise different,
the first index with that code is the only one. -/
def idx (A : List Byte) (c : Byte) : Option Nat := A.idxOf? c

/-- `hexval(c)`, the Base-16 decode lookup, which accepts either case (R107). -/
def hexval (c : Byte) : Option Nat :=
  if 0x30 ≤ c.toNat ∧ c.toNat ≤ 0x39 then some (c.toNat - 0x30)
  else if 0x61 ≤ c.toNat ∧ c.toNat ≤ 0x66 then some (c.toNat - 0x61 + 10)
  else if 0x41 ≤ c.toNat ∧ c.toNat ≤ 0x46 then some (c.toNat - 0x41 + 10)
  else none

/-- Look every code of a sequence up, in order; none as soon as one code has no index (R106: every decode rule
turns that into `FormatError`). -/
def lookupAll (lookup : Byte → Option Nat) : List Byte → Option (List Nat)
  | [] => some []
  | c :: cs =>
    match lookup c with
    | none => none
    | some k => (lookupAll lookup cs).map (k :: ·)

end Sys2Proof.Machine
end

