-- ==== Sys2Proof/Machine/Operands.lean ====
section
/-! DEFINITION. The operands of a command (spec/30_encoding.md R90): the data operand IN[0..IN_LEN) and the
alphabet that ASEL selects (spec/40_alphabet.md R105, R111). -/

namespace Sys2Proof.Machine

/-- The data operand of every command (R27, R90): the sequence IN[0], …, IN[IN_LEN-1]. -/
def input (s : State) : List Byte := (List.range s.inLen.toNat).map (inUnit s)

/-- The alphabet in a slot, or `ConfigurationError` if the slot is empty (R105, R111). -/
def slotAlphabet {n : Nat} (slot : Slot n) : Except ErrKind (List Byte) :=
  if slot.valid then .ok slot.tab.toList else .error .config

/-- `alpha32(asel)` (R105). -/
def alpha32 (asel : ASel) (s : State) : Except ErrKind (List Byte) :=
  match asel with
  | .std => .ok B32STD
  | .hex => .ok B32HEX
  | .cus => slotAlphabet s.slot32

/-- `alpha58(asel)` (R105). `HEX` names no Base-58 alphabet: a Base-58 word with ASEL = 1 is ILLEGAL (R83, R91), and
so is the term that stands for it, which no word decodes to (log entry 13). -/
def alpha58 (asel : ASel) (s : State) : Except ErrKind (List Byte) :=
  match asel with
  | .std => .ok B58STD
  | .hex => .error .illegal
  | .cus => slotAlphabet s.slot58

end Sys2Proof.Machine
end

