-- ==== Sys2Proof/Machine/AlphabetLoad.lean ====
section
/-! DEFINITION. The construction of custom alphabets (spec/40_alphabet.md): `ALOAD32` (R108) and `ALOAD58` (R109),
with the lifetime of a slot (R110). -/

namespace Sys2Proof.Machine

/-- No code occurs twice (R100, R108, R109). -/
def noDuplicates : List Byte → Bool
  | [] => true
  | c :: cs => !cs.contains c && noDuplicates cs

/-- `ALOAD32(inp)` (R108): exactly 32 codes, pairwise different, none the padding symbol. -/
def aload32 (inp : List Byte) : Except ErrKind (Vector Byte 32) :=
  if h : inp.length = 32 then
    if noDuplicates inp && !inp.contains padSymbol then .ok ⟨inp.toArray, by simpa using h⟩
    else .error .config
  else .error .config

/-- `ALOAD58(inp)` (R109): exactly 58 codes, pairwise different. -/
def aload58 (inp : List Byte) : Except ErrKind (Vector Byte 58) :=
  if h : inp.length = 58 then
    if noDuplicates inp then .ok ⟨inp.toArray, by simpa using h⟩
    else .error .config
  else .error .config

/-- The meaning of `ALOAD32` (R27, R108). -/
def execAload32 (s : State) : Host.Outcome State Fault Refusal :=
  .next (s.finishLoad32 (aload32 (input s)))

/-- The meaning of `ALOAD58` (R27, R109). -/
def execAload58 (s : State) : Host.Outcome State Fault Refusal :=
  .next (s.finishLoad58 (aload58 (input s)))

end Sys2Proof.Machine
end

