-- ==== Sys2Proof/Machine/Base16.lean ====
section
/-! DEFINITION. The Base-16 nibble-mapper (spec/41_base16.md): `B16ENC` (R120) and `B16DEC` (R121). -/

namespace Sys2Proof.Machine

/-- The two hex symbols of a byte, high nibble first (R120). -/
def hexPair (b : Byte) : List Byte :=
  [sym HEX16 (b.extractLsb' 4 4).toNat, sym HEX16 (b.extractLsb' 0 4).toNat]

/-- The hex string of a byte sequence, of any length (R120). -/
def hexString (b : List Byte) : List Byte := b.flatMap hexPair

/-- `B16ENC(b)` in a block of capacity `cap` (R120). -/
def b16enc (cap : Nat) (b : List Byte) : Except ErrKind (List Byte) :=
  if 2 * b.length > cap then .error .capacity else .ok (hexString b)

/-- The bytes of a sequence of digit values taken in pairs, the first the high nibble (R121). -/
def nibblePairs : List Nat → List Byte
  | hi :: lo :: rest => BitVec.ofNat 8 (16 * hi + lo) :: nibblePairs rest
  | _ => []

/-- `B16DEC(s)` (R121). -/
def b16dec (s : List Byte) : Except ErrKind (List Byte) :=
  if s.length % 2 = 1 then .error .format
  else
    match lookupAll hexval s with
    | none => .error .format
    | some h => .ok (nibblePairs h)

/-- The meaning of `B16ENC` (R27, R120). -/
def execB16enc (s : State) : Host.Outcome State Fault Refusal :=
  .next (s.finish (b16enc Config.CAP (input s)))

/-- The meaning of `B16DEC` (R27, R121). -/
def execB16dec (s : State) : Host.Outcome State Fault Refusal :=
  .next (s.finish (b16dec (input s)))

end Sys2Proof.Machine
end

