-- ==== Sys2Proof/Machine/Base32.lean ====
section
/-! DEFINITION. The Base-32 5-bit packer and unpacker (spec/42_base32.md): `B32ENC` (R130, R131) and `B32DEC`
(R133, R134). -/

namespace Sys2Proof.Machine

/-- `bit(b, t)`, the bit stream of a byte sequence: byte 0 first, bit 7 of a byte first, 0 from the end of the
sequence on (R130). -/
def bit (b : List Byte) (t : Nat) : Bool := (b.getD (t / 8) 0).getLsbD (7 - t % 8)

/-- The index of data symbol `k`: stream bits `5k` to `5k+4`, the first the most significant (R131). -/
def group5 (b : List Byte) (k : Nat) : Nat :=
  16 * (bit b (5 * k)).toNat + 8 * (bit b (5 * k + 1)).toNat + 4 * (bit b (5 * k + 2)).toNat
    + 2 * (bit b (5 * k + 3)).toNat + (bit b (5 * k + 4)).toNat

/-- The number of data symbols for `n` bytes, `ceil(8n/5)` (R131). -/
def dataSymbols (n : Nat) : Nat := (8 * n + 4) / 5

/-- The length of the string for `n` bytes: the data symbols, brought to a multiple of 8 when `pad` is set
(R131). -/
def base32Length (pad : Bool) (n : Nat) : Nat :=
  if pad then 8 * ((dataSymbols n + 7) / 8) else dataSymbols n

/-- The Base-32 string of a byte sequence, of any length (R131). -/
def base32String (A : List Byte) (pad : Bool) (b : List Byte) : List Byte :=
  (List.range (dataSymbols b.length)).map (fun k => sym A (group5 b k))
    ++ List.replicate (base32Length pad b.length - dataSymbols b.length) padSymbol

/-- `B32ENC(b, A, pad)` in a block of capacity `cap` (R131). -/
def b32enc (cap : Nat) (A : List Byte) (pad : Bool) (b : List Byte) : Except ErrKind (List Byte) :=
  if base32Length pad b.length > cap then .error .capacity else .ok (base32String A pad b)

/-- The string without its trailing run of padding symbols, all of them (R133). -/
def stripPadding (s : List Byte) : List Byte := (s.reverse.dropWhile (· == padSymbol)).reverse

/-- `sbit(g, t)`, the bit stream of a sequence of symbol indices: symbol 0 first, bit 4 of a symbol first
(R130). -/
def sbit (g : List Nat) (t : Nat) : Bool := (g.getD (t / 5) 0).testBit (4 - t % 5)

/-- Byte `j` of the symbol stream: stream bit `8j` is its bit 7 (R133). -/
def streamByte (g : List Nat) (j : Nat) : Byte :=
  BitVec.ofNat 8 ((List.range 8).map fun i => (sbit g (8 * j + i)).toNat * 2 ^ (7 - i)).sum

/-- The whole bytes of the symbol stream; the bits left over are dropped unexamined (R133, R134). -/
def streamBytes (g : List Nat) : List Byte := (List.range (5 * g.length / 8)).map (streamByte g)

/-- `B32DEC(s, A)` (R133). -/
def b32dec (A s : List Byte) : Except ErrKind (List Byte) :=
  match lookupAll (idx A) (stripPadding s) with
  | none => .error .format
  | some g => .ok (streamBytes g)

/-- The meaning of `B32ENC` (R27, R131). -/
def execB32enc (asel : ASel) (pad : Bool) (s : State) : Host.Outcome State Fault Refusal :=
  .next (s.finish ((alpha32 asel s).bind fun A => b32enc Config.CAP A pad (input s)))

/-- The meaning of `B32DEC` (R27, R133). -/
def execB32dec (asel : ASel) (s : State) : Host.Outcome State Fault Refusal :=
  .next (s.finish ((alpha32 asel s).bind fun A => b32dec A (input s)))

end Sys2Proof.Machine
end

