-- ==== Sys2Proof/Machine/Base58.lean ====
section
/-! DEFINITION. The Base-58 radix converter (spec/43_base58.md): the integer laws (R150 to R154), the same
conversion on byte arrays (R158), `B58ENC` (R155) and `B58DEC` (R156). -/

namespace Sys2Proof.Machine

/-! The integer laws. All of it is exact arithmetic on natural numbers (R152). -/

/-- `nat(b)`, the big-endian base-256 value of a byte sequence (R150). -/
def natOf (b : List Byte) : Nat := b.foldl (fun v x => v * 256 + x.toNat) 0

/-- The digits of `v` in base `b`, most significant first, no leading zero digit: divide, collect the remainder,
until the value is zero (R154). `fuel` bounds the divisions; `v` of them are enough, as each makes the value
smaller. -/
def digitsAux (b : Nat) : (fuel v : Nat) → List Nat
  | 0, _ => []
  | fuel + 1, v => if v = 0 then [] else digitsAux b fuel (v / b) ++ [v % b]

/-- `digits58(v)` (R154). -/
def digits58 (v : Nat) : List Nat := digitsAux 58 v v

/-- `val58(g)`, accumulated left to right (R154). -/
def val58 (g : List Nat) : Nat := g.foldl (fun v d => v * 58 + d) 0

/-- `bytes_min(v)`, the shortest big-endian byte sequence of value `v`; empty for 0 (R151). -/
def bytesMin (v : Nat) : List Byte := (digitsAux 256 v v).map (BitVec.ofNat 8)

/-- The length of the longest run of `z` from index 0 (R153). -/
def leadingRun (z : Byte) (s : List Byte) : Nat := (s.takeWhile (· == z)).length

/-- `lz(b)`, the number of leading zero bytes (R153). -/
def lz (b : List Byte) : Nat := leadingRun 0 b

/-- `lzs(s, A)`, the number of leading zero-index symbols (R153). -/
def lzs (s A : List Byte) : Nat := leadingRun (sym A 0) s

/-! The same conversion on byte arrays (R158): long division and multiplication by 58, most significant byte
first. The commands below use the number form, as R158 allows (log entry 16). -/

/-- One long division of a byte array by 58 with incoming remainder `r`: the quotient array and the remainder. -/
def divPass : (r : Nat) → List Byte → List Byte × Nat
  | r, [] => ([], r)
  | r, w :: ws =>
    let acc := r * 256 + w.toNat
    let rest := divPass (acc % 58) ws
    (BitVec.ofNat 8 (acc / 58) :: rest.1, rest.2)

/-- The loop of `digits58_bytes`: divide until every byte is zero; `acc` holds the digits found so far, which are
less significant than those to come. -/
def digits58BytesAux : (fuel : Nat) → List Byte → (acc : List Nat) → List Nat
  | 0, _, acc => acc
  | fuel + 1, w, acc =>
    if w.all (· == 0) then acc
    else digits58BytesAux fuel (divPass 0 w).1 ((divPass 0 w).2 :: acc)

/-- `digits58_bytes(b)` (R158). A division by 58 takes at least one bit off the value, so `8 * len(b)` divisions
are enough. -/
def digits58Bytes (b : List Byte) : List Nat := digits58BytesAux (8 * b.length) b []

/-- One multiplication of a byte array by 58 with `carry` added, least significant byte first: the array and the
carry out. -/
def mulPass (carry : Nat) : List Byte → List Byte × Nat
  | [] => ([], carry)
  | w :: ws =>
    let rest := mulPass carry ws
    let acc := w.toNat * 58 + rest.2
    (BitVec.ofNat 8 (acc % 256) :: rest.1, acc / 256)

/-- `val58_bytes(g, L)` (R158): an array of `room` bytes that starts at zero. -/
def val58Bytes (g : List Nat) (room : Nat) : List Byte :=
  g.foldl (fun w x => (mulPass x w).1) (List.replicate room 0)

/-! The commands. -/

/-- The Base-58 string of a byte sequence, of any length: one zero-index symbol for each leading zero byte, then
the digits of the value (R155). -/
def base58String (A b : List Byte) : List Byte :=
  List.replicate (lz b) (sym A 0) ++ (digits58 (natOf b)).map (sym A)

/-- `B58ENC(b, A)` in a block of capacity `cap` (R155). -/
def b58enc (cap : Nat) (A b : List Byte) : Except ErrKind (List Byte) :=
  if (base58String A b).length > cap then .error .capacity else .ok (base58String A b)

/-- `B58DEC(s, A)` (R156). -/
def b58dec (A s : List Byte) : Except ErrKind (List Byte) :=
  match lookupAll (idx A) s with
  | none => .error .format
  | some g => .ok (List.replicate (lzs s A) 0 ++ bytesMin (val58 g))

/-- The meaning of `B58ENC` (R27, R155). -/
def execB58enc (asel : ASel) (s : State) : Host.Outcome State Fault Refusal :=
  .next (s.finish ((alpha58 asel s).bind fun A => b58enc Config.CAP A (input s)))

/-- The meaning of `B58DEC` (R27, R156). -/
def execB58dec (asel : ASel) (s : State) : Host.Outcome State Fault Refusal :=
  .next (s.finish ((alpha58 asel s).bind fun A => b58dec A (input s)))

end Sys2Proof.Machine
end

