-- ==== Sys2Proof/Machine/Checksum.lean ====
section
/-! DEFINITION. The checksum-embed wrapper (spec/44_base58_checksum.md): the checksum (R170), `B58CENC` (R172) and
`B58CDEC` (R173). The hash function is a parameter of the definitions (R171); the meanings take `Config.H`. Its two
transactions are plain function application (R175; log entry 21). -/

namespace Sys2Proof.Machine

/-- `ck(p)` = `H(H(p))[0..4)` (R170). -/
def ck (H : List Byte → List Byte) (p : List Byte) : List Byte := (H (H p)).take 4

/-- `B58CENC(p, A)` in a block of capacity `cap` (R172): only the final string is compared with `cap` (D29). -/
def b58cenc (H : List Byte → List Byte) (cap : Nat) (A p : List Byte) : Except ErrKind (List Byte) :=
  b58enc cap A (p ++ ck H p)

/-- `B58CDEC(s, A)` (R173): decode, then the length check, then the comparison of all 4 bytes. -/
def b58cdec (H : List Byte → List Byte) (A s : List Byte) : Except ErrKind (List Byte) :=
  match b58dec A s with
  | .error e => .error e
  | .ok d =>
    if d.length < 4 then .error .format
    else if ck H (d.take (d.length - 4)) ≠ d.drop (d.length - 4) then .error .checksum
    else .ok (d.take (d.length - 4))

/-- The meaning of `B58CENC` (R27, R172). -/
def execB58cenc (asel : ASel) (s : State) : Host.Outcome State Fault Refusal :=
  .next (s.finish ((alpha58 asel s).bind fun A => b58cenc Config.H Config.CAP A (input s)))

/-- The meaning of `B58CDEC` (R27, R173). -/
def execB58cdec (asel : ASel) (s : State) : Host.Outcome State Fault Refusal :=
  .next (s.finish ((alpha58 asel s).bind fun A => b58cdec Config.H A (input s)))

end Sys2Proof.Machine
end

