-- ==== Sys2Proof/Machine/Dispatch.lean ====
section
/-! DEFINITION. One arm per command: the meaning it calls (spec/10_state.md R27, spec/30_encoding.md R82). -/

namespace Sys2Proof.Machine

/-- Perform a command on a state (R27). -/
def exec (i : Instr) (s : State) : Host.Outcome State Fault Refusal :=
  match i with
  | .b16enc => Sys2Proof.Machine.execB16enc s
  | .b16dec => Sys2Proof.Machine.execB16dec s
  | .b32enc asel pad => Sys2Proof.Machine.execB32enc asel pad s
  | .b32dec asel => Sys2Proof.Machine.execB32dec asel s
  | .b58enc asel => Sys2Proof.Machine.execB58enc asel s
  | .b58dec asel => Sys2Proof.Machine.execB58dec asel s
  | .b58cenc asel => Sys2Proof.Machine.execB58cenc asel s
  | .b58cdec asel => Sys2Proof.Machine.execB58cdec asel s
  | .aload32 => Sys2Proof.Machine.execAload32 s
  | .aload58 => Sys2Proof.Machine.execAload58 s

end Sys2Proof.Machine
end

