-- ==== Sys2Proof/Machine/EngineStep.lean ====
section
/-! DEFINITION. The engine step (spec/10_state.md R27): decode the word in CMD (spec/30_encoding.md R91), then run the
command, or end with ILLEGAL (spec/60_exceptions.md R204). -/

namespace Sys2Proof.Machine

/-- The engine step (R27), enabled when PHASE = BUSY. ILLEGAL comes before every check of a command (R203). -/
def engineStep (s : State) : Host.Outcome State Fault Refusal :=
  match decode s.cmd with
  | .ok i => exec i s
  | .error _ => .next (s.raise .illegal)

/-- One step of waiting goes by (R245; log entry 7). -/
def passTime (s : State) : State := { s with delay := s.delay - 1 }

end Sys2Proof.Machine
end

