-- ==== Sys2Proof/Machine/Flags.lean ====
section
/-! DEFINITION. The four status bits and the STATUS register (spec/10_state.md R23, R31). The block has no
arithmetic flags; these bits are views of PHASE, ERR and the slots' valid bits. -/

namespace Sys2Proof.Machine

/-- STATUS bit 0, BUSY (R23). -/
def statusBusy (s : State) : Bool := s.phase == .busy

/-- STATUS bit 1, ERRF: PHASE is IDLE and ERR is not 0 (R23). -/
def statusErrf (s : State) : Bool := s.phase == .idle && s.err != 0

/-- STATUS bit 2, V32 (R23). -/
def statusV32 (s : State) : Bool := s.slot32.valid

/-- STATUS bit 3, V58 (R23). -/
def statusV58 (s : State) : Bool := s.slot58.valid

/-- The STATUS register: bits 31:4 read as 0 (R23). -/
def statusReg (s : State) : Word :=
  0#28 ++ BitVec.ofBool (statusV58 s) ++ BitVec.ofBool (statusV32 s) ++ BitVec.ofBool (statusErrf s)
    ++ BitVec.ofBool (statusBusy s)

end Sys2Proof.Machine
end

