-- ==== Sys2Proof/Machine/HostPort.lean ====
section
/-! DEFINITION. The host port: the five operations in either phase (spec/20_memory.md R50, R51, R57, R59, R65), the
reset input (spec/70_reset_and_hazards.md R230), and how one line of the host's queue is served. -/

namespace Sys2Proof.Machine

/-! Reads. `none` stands for a value the spec leaves unspecified. -/

/-- What `RD k` returns (R22 to R25, R57, R59, R65): while BUSY, ERR and OUT_LEN read as unspecified; an undefined
register reads 0 in either phase (log entry 11). -/
def readReg (s : State) : Nat → Option Word
  | 0 => some s.cmd
  | 1 => some (statusReg s)
  | 2 => if s.phase = .busy then none else some (s.err.zeroExtend 32)
  | 3 => some s.inLen
  | 4 => if s.phase = .busy then none else some s.outLen
  | _ => some 0

/-- What `RIN i` returns, in either phase (R57, R59): unspecified at and above CAP (U4). -/
def readIn (s : State) (i : Nat) : Option Byte :=
  if i < Config.CAP then some (inUnit s i) else none

/-- What `ROUT i` returns (R29, R57, R59): the unit while IDLE and below OUT_LEN, else unspecified (U1, U2, U4). -/
def readOut (s : State) (i : Nat) : Option Byte :=
  if s.phase = .idle ∧ i < s.outLen.toNat then s.outBuf.read? i else none

/-- The value of `RD k` at this access: the specified one, else a free one (U2; log entry 5). -/
def regReply (s : State) (k : Nat) : Word := (readReg s k).getD (Config.freeReg s.fresh)

/-- The value of `RIN i` at this access: the specified one, else a free one (U4; log entry 5). -/
def inReply (s : State) (i : Nat) : Byte := (readIn s i).getD (Config.freeUnit s.fresh)

/-- The value of `ROUT i` at this access: the specified one, else a free one (U1, U2, U4; log entries 4 and 5). -/
def outReply (s : State) (i : Nat) : Byte := (readOut s i).getD (Config.freeUnit s.fresh)

/-! Writes. -/

/-- An accepted write to CMD: all 32 bits are stored and the command is in flight (R22, R57). How long it stays in
flight is free (R245; log entry 7). -/
def startCommand (s : State) (v : Word) : State :=
  { s with cmd := v, phase := .busy, delay := Config.engineDelay s.fresh }

/-- `WR k, v` while IDLE (R25, R57, R65): CMD starts a command, IN_LEN takes a value up to CAP, everything else is
ignored. -/
def writeRegIdle (s : State) (k : Nat) (v : Word) : State :=
  match k with
  | 0 => startCommand s v
  | 3 => if v.toNat ≤ Config.CAP then { s with inLen := v } else s
  | _ => s

/-- `WR k, v`: ignored while BUSY (R59). -/
def writeReg (s : State) (k : Nat) (v : Word) : State :=
  match s.phase with
  | .idle => writeRegIdle s k v
  | .busy => s

/-- `WIN i, v`: ignored while BUSY (R59) and at or above CAP (R57, R65). -/
def writeIn (s : State) (i : Nat) (v : Byte) : State :=
  match s.phase with
  | .idle => if i < Config.CAP then { s with inBuf := s.inBuf.write i v } else s
  | .busy => s

/-! One access, and one line of the queue. -/

/-- What an access does to the block (R50, R57, R59): a read changes nothing. -/
def accessEffect (s : State) : HostOp → State
  | .rd _ => s
  | .wr k v => writeReg s k v
  | .rin _ => s
  | .win i v => writeIn s i v
  | .rout _ => s

/-- What an access returns to the host (R50): a write returns nothing. -/
def accessReply (s : State) : HostOp → Option Reply
  | .rd k => some (.reg (regReply s k))
  | .wr _ _ => none
  | .rin i => some (.unit (inReply s i))
  | .win _ _ => none
  | .rout i => some (.unit (outReply s i))

/-- Serve one access of the host port: its effect, its reply, and a new index for the free values. -/
def serveAccess (s : State) (op : HostOp) : State :=
  { accessEffect s op with
    replies := (accessReply s op).toList ++ s.replies
    fresh := s.fresh + 1 }

/-- The reset input (R230): every piece of state takes its reset value (R34), a command in flight is abandoned, the
contents of IN, OUT and the tables are unspecified anew. The outside world's own coming lines and past replies
stay (log entry 10). -/
def resetInput (s : State) : State :=
  { State.reset with
    slot32 := { tab := Config.slot32PowerOn (s.epoch + 1), valid := false }
    slot58 := { tab := Config.slot58PowerOn (s.epoch + 1), valid := false }
    fresh := s.fresh
    epoch := s.epoch + 1
    port := s.port
    replies := s.replies }

/-- Serve line `l`, already taken off the queue. `WAIT` is `RD STATUS` once, and `WAIT` again while BUSY; `RDOUT` is
`RD OUT_LEN`, then a `ROUT` for each unit (spec/30_encoding.md R94; log entry 19). -/
def serveLine (s : State) : HostLine → State
  | .access op => serveAccess s op
  | .wait =>
    if statusBusy s then serveAccess { s with port := .wait :: s.port } (.rd 1) else serveAccess s (.rd 1)
  | .rdout =>
    let n := (regReply s 4).toNat
    serveAccess { s with port := (List.range n).map (fun i => .access (.rout i)) ++ s.port } (.rd 4)
  | .reset => resetInput s

/-- Serve the oldest line of the queue; with an empty queue nothing happens (log entry 8). -/
def serve (s : State) : State :=
  match s.port with
  | [] => s
  | l :: rest => serveLine { s with port := rest } l

end Sys2Proof.Machine
end

