-- ==== Sys2Proof/Machine/Step.lean ====
section
/-! DEFINITION. One step of the machine: the engine's when a command in flight is due, else the host's
(spec/00_scope.md R7, spec/10_state.md R26, R27, spec/20_memory.md R61). -/

namespace Sys2Proof.Machine

/-- One step. While IDLE the host's next line is served. While BUSY the engine takes its step when the delay drawn
at the CMD write has run out, and until then each step serves one line of the host (R59, R61, R244; log
entry 7). -/
def step (s : State) : Host.Outcome State Fault Refusal :=
  match s.phase with
  | .idle => .next (serve s)
  | .busy => if s.delay = 0 then engineStep s else .next (serve (passTime s))

/-- The state in which the low `nbits` bits of `w` are the command in flight and the engine's step is the very next
one: what an accepted `WR CMD` leaves, with the delay run out. The command word is the whole program of this
machine, and the host supplies it (R26; log entry 9). -/
def State.withFetchWord (s : State) (nbits w : Nat) : State :=
  { s with cmd := tableWord nbits w, phase := .busy, delay := 0 }

end Sys2Proof.Machine
end

