-- ==== Sys2Proof/Machine/HostProgram.lean ====
section
/-! DEFINITION. The host's notation (spec/30_encoding.md R92, R94): the assembler's spellings of a command, and the
pseudo-lines `LDIN` and `RUN`. (`WAIT` and `RDOUT` depend on what is read; they are lines of the queue.) -/

namespace Sys2Proof.Machine

/-- The ten mnemonics (R82, R92). -/
inductive Mnemonic where
  | B16ENC | B16DEC | B32ENC | B32DEC | B58ENC | B58DEC | B58CENC | B58CDEC | ALOAD32 | ALOAD58
deriving DecidableEq, Repr

/-- A spelling `MNEMONIC[.alphabet][.P]` (R92). -/
structure Spelling where
  /-- The mnemonic. -/
  mnemonic : Mnemonic
  /-- The suffix `.STD`, `.HEX` or `.CUS`, if one is written. -/
  alphabet : Option ASel
  /-- Whether `.P` is written. -/
  p : Bool
deriving DecidableEq, Repr

/-- The operation code of a mnemonic (R82). -/
def Mnemonic.op : Mnemonic → BitVec 4
  | .B16ENC => 1
  | .B16DEC => 2
  | .B32ENC => 3
  | .B32DEC => 4
  | .B58ENC => 5
  | .B58DEC => 6
  | .B58CENC => 7
  | .B58CDEC => 8
  | .ALOAD32 => 9
  | .ALOAD58 => 10

/-- The ALOAD commands take no suffix and always assemble with ASEL = 2 (R92). -/
def Mnemonic.loads : Mnemonic → Bool
  | .ALOAD32 => true
  | .ALOAD58 => true
  | .B16ENC => false
  | .B16DEC => false
  | .B32ENC => false
  | .B32DEC => false
  | .B58ENC => false
  | .B58DEC => false
  | .B58CENC => false
  | .B58CDEC => false

/-- The fields a spelling gives a word: an absent alphabet is `STD`, an absent `.P` is PAD = 0 (R92). -/
def Spelling.word (sp : Spelling) : Word :=
  wordOf sp.mnemonic.op (if sp.mnemonic.loads then 2 else (sp.alphabet.getD .std).field) sp.p

/-- The assembler (R92): the word of a spelling, or none where it rejects it: a suffix on an ALOAD command, `.P` on
any command but `B32ENC`, and any spelling whose word is ILLEGAL. -/
def assemble (sp : Spelling) : Option Word :=
  if sp.mnemonic.loads && (sp.alphabet.isSome || sp.p) then none
  else if sp.p && sp.mnemonic != .B32ENC then none
  else
    match decode sp.word with
    | .ok _ => some sp.word
    | .error _ => none

/-- `WIN i, u` for each unit `u` of a sequence, from index `i` on. -/
def writeUnits (i : Nat) : List Byte → List HostLine
  | [] => []
  | u :: us => .access (.win i u) :: writeUnits (i + 1) us

/-- `LDIN us` (R94): write the units from index 0 on, then IN_LEN. -/
def ldin (us : List Byte) : List HostLine :=
  writeUnits 0 us ++ [.access (.wr 3 (BitVec.ofNat 32 us.length))]

/-- `RUN <mnemonic>` (R94): `WR CMD`, then `WAIT`. -/
def runCommand (i : Instr) : List HostLine := [.access (.wr 0 (encode i)), .wait]

end Sys2Proof.Machine
end

