-- ==== Sys2Proof/Machine/Run.lean ====
section
/-! DEFINITION. Runs of many steps, and the end of a run of a host program (spec/70_reset_and_hazards.md R246): the
moment its last line has executed. -/

namespace Sys2Proof.Machine

/-- `k` steps of the machine, stopping at the first fault or refusal. -/
def stepN : Nat → State → Host.Outcome State Fault Refusal
  | 0, s => .next s
  | k + 1, s =>
    match step s with
    | .next t => stepN k t
    | .fault f => .fault f
    | .refused r => .refused r

/-- Every line of the host program has executed: no line is left. A `WAIT` stays at the head until it reads BUSY = 0,
and an `RDOUT` leaves its reads there, so a line leaves the queue when it has executed whole (R94; log entry 19). -/
def State.runEnded (s : State) : Bool := s.port.isEmpty

/-- The first state of the run from `s` in which no line is left, if at most `fuel` steps reach it: the machine at the
moment the last line has executed (R246). The steps that may follow, the engine step of a command still in flight
among them, are no part of the run. -/
def runToEnd : (fuel : Nat) → State → Option State
  | 0, s => if s.runEnded then some s else none
  | fuel + 1, s =>
    if s.runEnded then some s
    else
      match step s with
      | .next t => runToEnd fuel t
      | .fault _ => none
      | .refused _ => none

/-- The run of the host program in `s` ends, and `t` is the state at the moment its last line has executed (R246). -/
def State.RunEndsAt (s t : State) : Prop := ∃ fuel, runToEnd fuel s = some t

/-- The run of the host program in `s` ends cleanly: at the moment its last line has executed, PHASE = IDLE (R246). -/
def State.EndsCleanly (s : State) : Prop := ∃ t, s.RunEndsAt t ∧ t.phase = .idle

end Sys2Proof.Machine
end

