-- ==== Sys2Proof/Machine/System.lean ====
section
/-! DEFINITION. Several block instances side by side (spec/60_exceptions.md R214): each has its own state, they share
only the constants, and one of them steps at a time. The core itself is one instance (log entry 15). -/

namespace Sys2Proof.Machine

/-- One step of an instance; an instance that stopped would stay as it is (none ever stops). -/
def advance (s : State) : State :=
  match step s with
  | .next t => t
  | .fault _ => s
  | .refused _ => s

/-- `k` steps of an instance on its own. -/
def advanceN : Nat → State → State
  | 0, s => s
  | k + 1, s => advanceN k (advance s)

/-- The instances of a system. -/
abbrev System := List State

/-- Instance `k` steps; the others stay. -/
def System.stepAt (y : System) (k : Nat) : System := y.modify k advance

/-- The instances step in the order a schedule gives. -/
def System.runSchedule (y : System) : (schedule : List Nat) → System
  | [] => y
  | k :: rest => System.runSchedule (y.stepAt k) rest

end Sys2Proof.Machine
end

