-- ==== Sys2Proof/Safety.lean ====
section
/-! DEFINITION. The terms the statements use: alphabets (spec/40_alphabet.md R100), the Base-58 results said without an
algorithm, the state invariant of spec/10_state.md R35 with the buffers' forms, and tables of the spec. -/

namespace Sys2Proof.Machine

/-- An alphabet for radix `n` (R100): exactly `n` codes, pairwise different. -/
structure IsAlphabet (n : Nat) (A : List Byte) : Prop where
  /-- Exactly `n` symbols. -/
  size : A.length = n
  /-- Pairwise different. -/
  nodup : A.Nodup

/-- The codes a symbol sequence looks up to: `g[i] = idx(A, s[i])` for every `i` (R106). -/
abbrev LooksUpTo (A s : List Byte) (g : List Nat) : Prop := List.Forall₂ (fun c k => idx A c = some k) s g

/-- `out` is the Base-58 string of the bytes `b` over `A`, said without an algorithm (R153 to R155): as many
zero-index symbols as `b` has leading zero bytes, then the base-58 digits of the value of `b` with no leading zero
digit. -/
def IsBase58String (A b out : List Byte) : Prop :=
  ∃ (z : Nat) (d : List Nat), out = List.replicate z (sym A 0) ++ d.map (sym A)
    ∧ (∀ i < z, b[i]? = some 0) ∧ b[z]? ≠ some 0
    ∧ val58 d = natOf b ∧ (∀ x ∈ d, x < 58) ∧ d.head? ≠ some 0

/-- `out` is what the string `s` over `A` decodes to, said without an algorithm (R151, R153, R156): as many zero bytes
as `s` has leading zero-index symbols, then the bytes of the value of `s` with no leading zero byte. -/
def IsBase58Decoding (A s out : List Byte) : Prop :=
  ∃ (z : Nat) (c : List Byte) (g : List Nat), out = List.replicate z 0 ++ c
    ∧ LooksUpTo A s g ∧ natOf c = val58 g ∧ c.head? ≠ some 0
    ∧ (∀ i < z, s[i]? = some (sym A 0)) ∧ s[z]? ≠ some (sym A 0)

/-- The last command succeeded and left the sequence `out` (R27, R29): ERR is 0, OUT_LEN is its length and OUT holds
its units. -/
structure State.HoldsOutput (s : State) (out : List Byte) : Prop where
  /-- ERR is 0. -/
  err : s.err = 0
  /-- OUT_LEN is the length. -/
  outLen : s.outLen.toNat = out.length
  /-- OUT[i] is unit `i`. -/
  units : ∀ i < out.length, s.outBuf.read? i = out[i]?

/-- The state invariant: R35, the alphabet invariant of the slots (R30, R100), and the forms of the two buffers. -/
structure State.Inv (s : State) : Prop where
  /-- `IN_LEN <= CAP`. -/
  inLen_le : s.inLen.toNat ≤ Config.CAP
  /-- `OUT_LEN <= CAP`. -/
  outLen_le : s.outLen.toNat ≤ Config.CAP
  /-- ERR is in 0..5. -/
  err_le : s.err.toNat ≤ 5
  /-- If ERR is not 0 then OUT_LEN is 0. -/
  err_outLen : s.err ≠ 0 → s.outLen = 0
  /-- A valid SLOT32 holds 32 pairwise different codes. -/
  slot32_alphabet : s.slot32.valid = true → IsAlphabet 32 s.slot32.tab.toList
  /-- A valid SLOT32 does not hold the padding symbol. -/
  slot32_noPad : s.slot32.valid = true → padSymbol ∉ s.slot32.tab.toList
  /-- A valid SLOT58 holds 58 pairwise different codes. -/
  slot58_alphabet : s.slot58.valid = true → IsAlphabet 58 s.slot58.tab.toList
  /-- IN is in its canonical form. -/
  inBuf_wf : Memory.wf s.inBuf
  /-- Every unit of IN is below CAP. -/
  inBuf_lt : ∀ c ∈ s.inBuf, c.1 < Config.CAP
  /-- OUT lists exactly the units 0 to OUT_LEN-1. -/
  outBuf_indices : s.outBuf.map Prod.fst = List.range s.outLen.toNat

/-! Tables of the spec that the statements compare the model with. -/

/-- The 21 legal words and their commands (30_encoding.md R86), written from the table there. -/
def legalTable : List (Word × Instr) :=
  [(0x10, .b16enc), (0x20, .b16dec)] ++
  [(0x30, .b32enc .std false), (0x32, .b32enc .std true), (0x34, .b32enc .hex false), (0x36, .b32enc .hex true)] ++
  [(0x38, .b32enc .cus false), (0x3A, .b32enc .cus true)] ++
  [(0x40, .b32dec .std), (0x44, .b32dec .hex), (0x48, .b32dec .cus)] ++
  [(0x50, .b58enc .std), (0x58, .b58enc .cus), (0x60, .b58dec .std), (0x68, .b58dec .cus)] ++
  [(0x70, .b58cenc .std), (0x78, .b58cenc .cus), (0x80, .b58cdec .std), (0x88, .b58cdec .cus)] ++
  [(0x98, .aload32), (0xA8, .aload58)]

/-- The assembler column of 30_encoding.md R86: every spelling and its word. -/
def spellingTable : List (Spelling × Word) :=
  [(⟨.B16ENC, none, false⟩, 0x10), (⟨.B16DEC, none, false⟩, 0x20)] ++
  [(⟨.B32ENC, none, false⟩, 0x30), (⟨.B32ENC, some .std, false⟩, 0x30)] ++
  [(⟨.B32ENC, none, true⟩, 0x32), (⟨.B32ENC, some .std, true⟩, 0x32)] ++
  [(⟨.B32ENC, some .hex, false⟩, 0x34), (⟨.B32ENC, some .hex, true⟩, 0x36)] ++
  [(⟨.B32ENC, some .cus, false⟩, 0x38), (⟨.B32ENC, some .cus, true⟩, 0x3A)] ++
  [(⟨.B32DEC, none, false⟩, 0x40), (⟨.B32DEC, some .std, false⟩, 0x40)] ++
  [(⟨.B32DEC, some .hex, false⟩, 0x44), (⟨.B32DEC, some .cus, false⟩, 0x48)] ++
  [(⟨.B58ENC, none, false⟩, 0x50), (⟨.B58ENC, some .std, false⟩, 0x50), (⟨.B58ENC, some .cus, false⟩, 0x58)] ++
  [(⟨.B58DEC, none, false⟩, 0x60), (⟨.B58DEC, some .std, false⟩, 0x60), (⟨.B58DEC, some .cus, false⟩, 0x68)] ++
  [(⟨.B58CENC, none, false⟩, 0x70), (⟨.B58CENC, some .std, false⟩, 0x70), (⟨.B58CENC, some .cus, false⟩, 0x78)] ++
  [(⟨.B58CDEC, none, false⟩, 0x80), (⟨.B58CDEC, some .std, false⟩, 0x80), (⟨.B58CDEC, some .cus, false⟩, 0x88)] ++
  [(⟨.ALOAD32, none, false⟩, 0x98), (⟨.ALOAD58, none, false⟩, 0xA8)]

/-- The codes a command can leave in ERR, by R202's table: 0 on success, and the kinds marked there. -/
def possibleErr : Instr → List Nat
  | .b16enc => [0, 5]
  | .b16dec => [0, 1]
  | .b32enc a _ => if a = .cus then [0, 3, 5] else [0, 5]
  | .b32dec a => if a = .cus then [0, 3, 1] else [0, 1]
  | .b58enc a => if a = .cus then [0, 3, 5] else [0, 5]
  | .b58dec a => if a = .cus then [0, 3, 1] else [0, 1]
  | .b58cenc a => if a = .cus then [0, 3, 5] else [0, 5]
  | .b58cdec a => if a = .cus then [0, 3, 1, 2] else [0, 1, 2]
  | .aload32 => [0, 3]
  | .aload58 => [0, 3]

/-- A hex symbol with `A` to `F` made lower case (R122). -/
def lowerHex (c : Byte) : Byte := if 0x41 ≤ c.toNat ∧ c.toNat ≤ 0x46 then c + 0x20 else c

/-! Words of the statements. -/

/-- Two slots are the same alphabet to every command: equal valid bits, and equal tables if they are valid (R30: the
table of an empty slot is read by nothing). -/
def sameAlphabet {n : Nat} (p q : Slot n) : Prop := p.valid = q.valid ∧ (p.valid = true → p.tab = q.tab)

/-- The next step serves the host: the engine is not due, that is, PHASE is IDLE or the model's delay has not run out
(R26, R61; log entry 7). -/
def hostDue (s : State) : Prop := s.phase = .idle ∨ s.delay ≠ 0

end Sys2Proof.Machine
end

