-- ==== Sys2Proof/Certificates/Slice0/Obligations.lean ====
section
/-! DEFINITION. The statements about the model. Each docstring names the rules of spec/ it states or rests on. A frame
is part of every result statement: `s.withOutput out`, `s.raise e`, `s.withSlot32 tab` and `s.withSlot58 tab` are `s`
with PHASE, ERR, OUT_LEN, OUT (and the one slot) set and nothing else, as `CommandsKeepTheirInputs` says once for all
commands. -/

open Sys2Proof Sys2Proof.Machine

/-! ## The command word -/

/-- Encoding a well-formed command and decoding the word gives the command back, with every operand; and a word that
decodes to a command is well formed and is exactly that command's word (30_encoding.md R81 to R84, R91). -/
def Obligations.DecodeAndEncodeAgree : Prop :=
  (∀ i : Instr, i.wf = true → decode (encode i) = .ok i)
    ∧ (∀ (w : Word) (i : Instr), decode w = .ok i → i.wf = true ∧ encode i = w)

/-- Exactly 21 words are legal, each decodes to the command of R86's table, and the assembler gives each of the
table's spellings its word (R86, with the decoder of R91). -/
def Obligations.ExactlyTwentyOneLegalWords : Prop :=
  legalTable.length = 21
    ∧ (∀ (w : Word) (i : Instr), decode w = .ok i ↔ (w, i) ∈ legalTable)
    ∧ (∀ p ∈ spellingTable, assemble p.1 = some p.2)

/-- The assembler accepts no other spelling: what it accepts is in R86's assembler column, or is a Base-16 command with
an explicit `.STD` (which R92's grammar allows), and it always gives a legal word (R92). -/
def Obligations.AssemblerGivesLegalWords : Prop :=
  ∀ (sp : Spelling) (w : Word), assemble sp = some w →
    (∃ i, decode w = .ok i)
      ∧ ((sp, w) ∈ spellingTable ∨ (sp, w) ∈ [((⟨.B16ENC, some .std, false⟩ : Spelling), (0x10 : Word)),
          (⟨.B16DEC, some .std, false⟩, 0x20)])

/-- A few words written out bit by bit from R81, R82 and R83: 0011 10 1 0 is B32ENC.CUS.P; 0101 00 0 0 is B58ENC.STD;
1000 10 0 0 is B58CDEC.CUS; and a set bit 0, a set bit 31, ASEL = 3 and ASEL = 1 for Base-58 make a word ILLEGAL. -/
def Obligations.DecoderReadsWordsOfTheSpec : Prop :=
  decode 0b00000000000000000000000000111010#32 = .ok (.b32enc .cus true)
    ∧ decode 0b00000000000000000000000001010000#32 = .ok (.b58enc .std)
    ∧ decode 0b00000000000000000000000010001000#32 = .ok (.b58cdec .cus)
    ∧ decode 0b00000000000000000000000000010001#32 = .error .reservedBit0
    ∧ decode 0b10000000000000000000000000010000#32 = .error .reservedHigh
    ∧ decode 0b00000000000000000000000000111100#32 = .error .aselNotAccepted
    ∧ decode 0b00000000000000000000000001010100#32 = .error .aselNotAccepted

/-! ## The engine step -/

/-- A step runs the decoded command: when the engine is due (PHASE = BUSY and the model's delay has run out, log
entry 7) the step is the engine step, which is `exec i` on that state, with nothing around it, if the word in CMD
decodes to `i`; and the state `withFetchWord` builds is such a state (R27, R91). -/
def Obligations.StepRunsTheDecodedCommand : Prop :=
  (∀ s : State, s.phase = .busy → s.delay = 0 → step s = engineStep s)
    ∧ (∀ (s : State) (i : Instr), s.phase = .busy → s.delay = 0 → decode s.cmd = .ok i → step s = exec i s)
    ∧ (∀ (s : State) (i : Instr), i.wf = true →
        step (s.withFetchWord 32 (encode i).toNat) = exec i { s with cmd := encode i, phase := .busy, delay := 0 })

/-- A word that is none of the 21 legal ones makes the engine step end with ERR = 4 and OUT_LEN = 0, and nothing else
changes but PHASE, which is IDLE: IN, IN_LEN, the slots and CMD keep their values, CMD holding the word, and OUT holds
no output (R204). -/
def Obligations.IllegalWordEndsWithErrFour : Prop :=
  ∀ s : State, s.cmd ∉ legalTable.map Prod.fst →
    engineStep s = .next { s with phase := .idle, err := 4, outLen := 0, outBuf := [] }

/-- Every command, successful or not, ends in a next state with PHASE = IDLE that keeps CMD, IN_LEN and IN, keeps
SLOT32 unless it is ALOAD32 and SLOT58 unless it is ALOAD58, leaves ERR at 5 or less, and leaves in OUT no unit but
those below OUT_LEN; nothing of the model's own fields moves (R26, R27). The frame of all ten commands. -/
def Obligations.CommandsKeepTheirInputs : Prop :=
  ∀ (i : Instr) (s : State), ∃ t, exec i s = .next t
    ∧ t.phase = .idle ∧ t.cmd = s.cmd ∧ t.inLen = s.inLen ∧ t.inBuf = s.inBuf
    ∧ (i ≠ .aload32 → t.slot32 = s.slot32) ∧ (i ≠ .aload58 → t.slot58 = s.slot58)
    ∧ t.err.toNat ≤ 5
    ∧ t.delay = s.delay ∧ t.fresh = s.fresh ∧ t.epoch = s.epoch ∧ t.port = s.port ∧ t.replies = s.replies
    ∧ (s.Inv → ∀ a, t.outLen.toNat ≤ a → t.outBuf.read? a = none)

/-- A failed command, an illegal word among them, has no effect but ERR, OUT_LEN = 0, PHASE = IDLE and the loss of the
previous output: CMD, IN, IN_LEN, SLOT32 and SLOT58 are unchanged and STATUS.ERRF reads 1 (R206, R207). -/
def Obligations.FailedCommandHasNoOtherEffect : Prop :=
  ∀ s t : State, engineStep s = .next t → t.err ≠ 0 →
    t = { s with phase := .idle, err := t.err, outLen := 0, outBuf := [] } ∧ statusErrf t = true

/-- The result of a command is a function of its data operand and the slots alone: two states that agree on
IN[0..IN_LEN) and on the slots' valid bits and valid tables give the same ERR, OUT_LEN, OUT and slots, whatever
commands and errors came before and whatever an empty slot's table holds (R30, R31, R32, R208). -/
def Obligations.ResultDependsOnOperandsOnly : Prop :=
  ∀ (i : Instr) (s u s' u' : State), input s = input u → sameAlphabet s.slot32 u.slot32 →
    sameAlphabet s.slot58 u.slot58 → exec i s = .next s' → exec i u = .next u' →
    s'.err = u'.err ∧ s'.outLen = u'.outLen ∧ s'.outBuf = u'.outBuf
      ∧ sameAlphabet s'.slot32 u'.slot32 ∧ sameAlphabet s'.slot58 u'.slot58

/-- A command reports no error kind that R202's table excludes for it: in particular no legal command reports ILLEGAL,
no encode command FORMAT or CHECKSUM, no decode command CAPACITY, and CONFIG comes only from ASEL = 2 and the ALOAD
commands (R202, R113). -/
def Obligations.OnlyListedErrorsAreReported : Prop :=
  ∀ (i : Instr) (s t : State), i.wf = true → exec i s = .next t → t.err.toNat ∈ possibleErr i

/-! ## Alphabets -/

/-- In every alphabet, lookup and symbol are exact inverses (R100, R106): the index of the symbol of index `k` is `k`,
and a code with an index is the symbol of that index; a code has an index exactly when it occurs. -/
def Obligations.LookupInvertsSymbol : Prop :=
  ∀ (n : Nat) (A : List Byte), IsAlphabet n A →
    (∀ k < n, idx A (sym A k) = some k)
      ∧ (∀ (c : Byte) (k : Nat), idx A c = some k → k < n ∧ sym A k = c)
      ∧ (∀ c : Byte, idx A c = none ↔ c ∉ A)

/-- The four presets are alphabets of 16, 32, 32 and 58 symbols, no Base-32 preset holds the padding symbol, and B58STD
lacks the codes of 0, O, I and l (R100 to R104, R112). -/
def Obligations.PresetsAreAlphabets : Prop :=
  IsAlphabet 16 HEX16 ∧ IsAlphabet 32 B32STD ∧ IsAlphabet 32 B32HEX ∧ IsAlphabet 58 B58STD
    ∧ padSymbol ∉ B32STD ∧ padSymbol ∉ B32HEX
    ∧ (∀ c ∈ ([0x30, 0x4F, 0x49, 0x6C] : List Byte), c ∉ B58STD)

/-- Base-16 decode lookup (R107): the digits, `a` to `f` and `A` to `F` have the values 0 to 15, no other code has a
value, and `hexval` agrees with `idx(HEX16, c)` wherever the latter is defined. -/
def Obligations.HexvalReadsEitherCase : Prop :=
  ∀ c : Byte,
    (∀ k : Nat, hexval c = some k ↔
      (0x30 ≤ c.toNat ∧ c.toNat ≤ 0x39 ∧ k = c.toNat - 0x30)
        ∨ (0x61 ≤ c.toNat ∧ c.toNat ≤ 0x66 ∧ k = c.toNat - 0x61 + 10)
        ∨ (0x41 ≤ c.toNat ∧ c.toNat ≤ 0x46 ∧ k = c.toNat - 0x41 + 10))
      ∧ (∀ k : Nat, idx HEX16 c = some k → hexval c = some k)

/-- Alphabet selection (R105, R111): ASEL 0 and 1 select the presets, ASEL 2 the slot's table if the slot is valid and
ConfigurationError if it is empty. -/
def Obligations.AselSelectsTheAlphabet : Prop :=
  ∀ s : State,
    alpha32 .std s = .ok B32STD ∧ alpha32 .hex s = .ok B32HEX ∧ alpha58 .std s = .ok B58STD
      ∧ (s.slot32.valid = true → alpha32 .cus s = .ok s.slot32.tab.toList)
      ∧ (s.slot32.valid = false → alpha32 .cus s = .error .config)
      ∧ (s.slot58.valid = true → alpha58 .cus s = .ok s.slot58.tab.toList)
      ∧ (s.slot58.valid = false → alpha58 .cus s = .error .config)

/-- Selecting an empty slot fails with ERR = 3 for each of the six codec commands that take ASEL = 2, whatever IN and
IN_LEN hold, and so before IN is looked at (R111). -/
def Obligations.EmptySlotIsConfigError : Prop :=
  ∀ s : State,
    (s.slot32.valid = false →
      (∀ pad, exec (.b32enc .cus pad) s = .next (s.raise .config)) ∧ exec (.b32dec .cus) s = .next (s.raise .config))
    ∧ (s.slot58.valid = false →
      exec (.b58enc .cus) s = .next (s.raise .config) ∧ exec (.b58dec .cus) s = .next (s.raise .config)
        ∧ exec (.b58cenc .cus) s = .next (s.raise .config) ∧ exec (.b58cdec .cus) s = .next (s.raise .config))
    ∧ (s.raise .config).err = 3

/-- ALOAD32 (R108): 32 codes, pairwise different, none 0x3D, are loaded: SLOT32 holds exactly IN[0..32) and is valid,
V32 and not ERRF, OUT_LEN = 0, ERR = 0. Otherwise ERR = 3 and the slot stays as it was. -/
def Obligations.Aload32LoadsACheckedTable : Prop :=
  encode .aload32 = 0x98 ∧
  ∀ s : State,
    ((input s).length = 32 ∧ (input s).Nodup ∧ padSymbol ∉ input s →
      ∃ tab : Vector Byte 32, tab.toList = input s
        ∧ exec .aload32 s = .next { s with phase := .idle, err := 0, outLen := 0, outBuf := [], slot32 := ⟨tab, true⟩ }
        ∧ statusV32 (s.withSlot32 tab) = true ∧ statusErrf (s.withSlot32 tab) = false)
    ∧ (¬((input s).length = 32 ∧ (input s).Nodup ∧ padSymbol ∉ input s) →
      exec .aload32 s = .next (s.raise .config) ∧ (s.raise .config).err = 3
        ∧ statusErrf (s.raise .config) = true ∧ statusV32 (s.raise .config) = statusV32 s)

/-- ALOAD58 (R109): 58 codes, pairwise different, are loaded: SLOT58 holds exactly IN[0..58) and is valid, V58 and not
ERRF, OUT_LEN = 0, ERR = 0. Otherwise ERR = 3 and the slot stays as it was. -/
def Obligations.Aload58LoadsACheckedTable : Prop :=
  encode .aload58 = 0xA8 ∧
  ∀ s : State,
    ((input s).length = 58 ∧ (input s).Nodup →
      ∃ tab : Vector Byte 58, tab.toList = input s
        ∧ exec .aload58 s = .next { s with phase := .idle, err := 0, outLen := 0, outBuf := [], slot58 := ⟨tab, true⟩ }
        ∧ statusV58 (s.withSlot58 tab) = true ∧ statusErrf (s.withSlot58 tab) = false)
    ∧ (¬((input s).length = 58 ∧ (input s).Nodup) →
      exec .aload58 s = .next (s.raise .config) ∧ (s.raise .config).err = 3
        ∧ statusErrf (s.raise .config) = true ∧ statusV58 (s.raise .config) = statusV58 s)

/-- Nothing but the reset input empties a slot (R110, R31): if a slot is valid before a step and not after it, the
step served the host, not the engine, and what it served was the reset input, with its whole effect. The host's queue,
the reset as a line of it and the delay are the model's (log entries 7, 8 and 10). -/
def Obligations.OnlyResetEmptiesASlot : Prop :=
  ∀ s t : State, step s = .next t →
    (s.slot32.valid = true ∧ t.slot32.valid = false) ∨ (s.slot58.valid = true ∧ t.slot58.valid = false) →
    hostDue s ∧ ∃ rest, s.port = .reset :: rest ∧ t = resetInput { s with port := rest }

/-! ## Base-16 -/

/-- B16ENC (R120): symbols 2j and 2j+1 of the result are the hex symbols of the high and the low nibble of byte j, the
length is twice the input's; a result longer than CAP is CAPACITY. -/
def Obligations.B16encMapsNibbles : Prop :=
  encode .b16enc = 0x10 ∧
  ∀ s : State,
    (2 * (input s).length ≤ Config.CAP →
      ∃ out : List Byte, out.length = 2 * (input s).length
        ∧ (∀ (j : Nat) (b : Byte), (input s)[j]? = some b →
            out[2 * j]? = some (sym HEX16 (b.toNat / 16)) ∧ out[2 * j + 1]? = some (sym HEX16 (b.toNat % 16)))
        ∧ exec .b16enc s = .next (s.withOutput out) ∧ statusErrf (s.withOutput out) = false)
    ∧ (Config.CAP < 2 * (input s).length → exec .b16enc s = .next (s.raise .capacity) ∧ (s.raise .capacity).err = 5)

/-- B16DEC (R121): an even number of hex symbols of either case decodes to the bytes whose high nibble is the first
symbol of each pair; an odd length or a foreign code is FORMAT. -/
def Obligations.B16decReadsNibbles : Prop :=
  encode .b16dec = 0x20 ∧
  ∀ s : State,
    ((input s).length % 2 = 0 → (∀ c ∈ input s, hexval c ≠ none) →
      ∃ out : List Byte, out.length = (input s).length / 2
        ∧ (∀ j < out.length, ∃ (c d : Byte) (hi lo : Nat), (input s)[2 * j]? = some c ∧ (input s)[2 * j + 1]? = some d
            ∧ hexval c = some hi ∧ hexval d = some lo ∧ out[j]? = some (BitVec.ofNat 8 (16 * hi + lo)))
        ∧ exec .b16dec s = .next (s.withOutput out) ∧ statusErrf (s.withOutput out) = false)
    ∧ ((input s).length % 2 = 1 ∨ (∃ c ∈ input s, hexval c = none) →
      exec .b16dec s = .next (s.raise .format) ∧ (s.raise .format).err = 1 ∧ statusErrf (s.raise .format) = true)

/-- The properties of R122: the length of B16ENC's result, the round trip, the 16 codes it uses, and for every string
B16DEC accepts the re-encoding is the string in lower case. -/
def Obligations.B16RoundTrip : Prop :=
  (∀ (cap : Nat) (b : List Byte), 2 * b.length ≤ cap →
    ∃ s, b16enc cap b = .ok s ∧ s.length = 2 * b.length ∧ b16dec s = .ok b ∧ (∀ c ∈ s, c ∈ HEX16))
  ∧ (∀ (s b : List Byte), b16dec s = .ok b → ∀ cap, s.length ≤ cap → b16enc cap b = .ok (s.map lowerHex))

/-! ## Base-32 -/

/-- B32ENC (R131) in its arithmetic form: with `m = ceil(8n/5)` and `v = nat(b) * 2^(5m - 8n)`, data symbol `k` is
`A[(v div 32^(m-1-k)) mod 32]`, the rest up to the least multiple of 8 are padding symbols when PAD is set; CONFIG on
an empty slot comes first, a result longer than CAP is CAPACITY. -/
def Obligations.B32encPacksFiveBitGroups : Prop :=
  (∀ a pad, (encode (.b32enc a pad), Instr.b32enc a pad) ∈ legalTable) ∧
  ∀ (a : ASel) (pad : Bool) (s : State),
    (a = .cus → s.slot32.valid = false → exec (.b32enc a pad) s = .next (s.raise .config) ∧ (s.raise .config).err = 3)
    ∧ ∀ (A b : List Byte) (n m L : Nat), alpha32 a s = .ok A → b = input s → n = b.length → m = (8 * n + 4) / 5 →
        L = (if pad then 8 * ((m + 7) / 8) else m) →
        (L ≤ Config.CAP →
          ∃ out : List Byte, out.length = L
            ∧ (∀ k < m, out[k]? = some (sym A (natOf b * 2 ^ (5 * m - 8 * n) / 32 ^ (m - 1 - k) % 32)))
            ∧ (∀ k, m ≤ k → k < L → out[k]? = some padSymbol)
            ∧ exec (.b32enc a pad) s = .next (s.withOutput out) ∧ statusErrf (s.withOutput out) = false)
        ∧ (Config.CAP < L → exec (.b32enc a pad) s = .next (s.raise .capacity) ∧ (s.raise .capacity).err = 5)

/-- B32ENC's lengths for `n = 5q + r` bytes (R132), as OUT_LEN shows them: `m` data symbols without PAD, `L` with it,
and the zero-fill bits of the last symbol; so it never emits 1, 3 or 6 data symbols beyond a multiple of 8 and never 2,
5 or 7 padding symbols. -/
def Obligations.B32encLengths : Prop :=
  ∀ (a : ASel) (s : State) (q r m L z : Nat), (∃ A, alpha32 a s = .ok A) → (input s).length = 5 * q + r →
    (r, m, L, z) ∈ [(0, 8 * q, 8 * q, 0), (1, 8 * q + 2, 8 * q + 8, 2), (2, 8 * q + 4, 8 * q + 8, 4),
      (3, 8 * q + 5, 8 * q + 8, 1), (4, 8 * q + 7, 8 * q + 8, 3)] →
    5 * m - 8 * (5 * q + r) = z ∧ m % 8 ∉ [1, 3, 6] ∧ L - m ∉ [2, 5, 7]
      ∧ (m ≤ Config.CAP → ∃ t, exec (.b32enc a false) s = .next t ∧ t.err = 0 ∧ t.outLen.toNat = m)
      ∧ (L ≤ Config.CAP → ∃ t, exec (.b32enc a true) s = .next t ∧ t.err = 0 ∧ t.outLen.toNat = L
          ∧ ∀ k, m ≤ k → k < L → t.outBuf.read? k = some padSymbol)

/-- B32DEC (R133) in its arithmetic form: strip the trailing run of padding symbols, look the other symbols up, and
with `v` the base-32 value of the indices, `L = floor(5m/8)` and `d = 5m - 8L`, the result is the exactly L-byte
big-endian form of `v div 2^d`; CONFIG on an empty slot comes first, a symbol outside the alphabet is FORMAT, and no
length is refused (R134). -/
def Obligations.B32decUnpacksFiveBitGroups : Prop :=
  (∀ a, (encode (.b32dec a), Instr.b32dec a) ∈ legalTable) ∧
  ∀ (a : ASel) (s : State),
    (a = .cus → s.slot32.valid = false → exec (.b32dec a) s = .next (s.raise .config) ∧ (s.raise .config).err = 3)
    ∧ ∀ A : List Byte, alpha32 a s = .ok A →
        ∃ (t : List Byte) (e : Nat), input s = t ++ List.replicate e padSymbol ∧ t.getLast? ≠ some padSymbol
          ∧ ((∃ c ∈ t, c ∉ A) →
              exec (.b32dec a) s = .next (s.raise .format) ∧ (s.raise .format).err = 1
                ∧ statusErrf (s.raise .format) = true)
          ∧ ((∀ c ∈ t, c ∈ A) →
              ∃ (g : List Nat) (out : List Byte), LooksUpTo A t g ∧ out.length = 5 * t.length / 8
                ∧ natOf out = Nat.ofDigits 32 g.reverse / 2 ^ (5 * t.length - 8 * out.length)
                ∧ exec (.b32dec a) s = .next (s.withOutput out) ∧ statusErrf (s.withOutput out) = false)

/-- B32DEC is permissive (R134): any number of trailing padding symbols gives the same result, and a last symbol that
differs from another in the dropped bits only gives the same bytes. -/
def Obligations.B32decIgnoresPaddingAndDroppedBits : Prop :=
  (∀ (A s : List Byte) (e : Nat), b32dec A (s ++ List.replicate e padSymbol) = b32dec A s)
  ∧ (∀ (A t : List Byte) (c d : Byte) (j k : Nat), IsAlphabet 32 A → padSymbol ∉ A → idx A c = some j → idx A d = some k →
      j / 2 ^ (5 * (t.length + 1) % 8) = k / 2 ^ (5 * (t.length + 1) % 8) → b32dec A (t ++ [c]) = b32dec A (t ++ [d]))

/-- The round trip and the padding equivalence of R135, on the machine: whatever the alphabet and PAD, if B32ENC left a
string and that string is the input of a B32DEC under the same alphabet, B32DEC gives back the payload. -/
def Obligations.B32RoundTrip : Prop :=
  ∀ (a a' : ASel) (pad : Bool) (s t u : State) (out : List Byte), s.Inv → exec (.b32enc a pad) s = .next t →
    t.HoldsOutput out → input u = out → alpha32 a' u = alpha32 a s →
    exec (.b32dec a') u = .next (u.withOutput (input s))

/-- The other two properties of R135: with PAD set the string is the unpadded one followed by padding symbols, and every
symbol of the unpadded string is an entry of the alphabet. -/
def Obligations.B32PaddingOnlyAppends : Prop :=
  ∀ (n : Nat) (A b s : List Byte), IsAlphabet 32 A → b32enc n A true b = .ok s →
    ∃ (r : List Byte) (e : Nat), b32enc n A false b = .ok r ∧ s = r ++ List.replicate e padSymbol ∧ (∀ c ∈ r, c ∈ A)

/-! ## Base-58 -/

/-- The integer laws (R150, R151, R154): `nat` is the base-256 sum and ignores leading zero bytes; `bytes_min(v)` is the
one byte sequence of value `v` without a leading zero byte, empty for 0 and of the least length `L` with
`v < 256^L`; `digits58` satisfies its equations, and `val58` is the base-58 sum and inverts it. -/
def Obligations.IntegerLaws : Prop :=
  (∀ b : List Byte, natOf b = ∑ i ∈ Finset.range b.length, (b.getD i 0).toNat * 256 ^ (b.length - 1 - i))
  ∧ (∀ (z : Nat) (b : List Byte), natOf (List.replicate z 0 ++ b) = natOf b)
  ∧ bytesMin 0 = []
  ∧ (∀ (v : Nat) (c : List Byte), c = bytesMin v ↔ natOf c = v ∧ c.head? ≠ some 0)
  ∧ (∀ v L : Nat, v < 256 ^ L ↔ (bytesMin v).length ≤ L)
  ∧ digits58 0 = [] ∧ (∀ v, 0 < v → digits58 v = digits58 (v / 58) ++ [v % 58])
  ∧ (∀ g : List Nat, val58 g = ∑ i ∈ Finset.range g.length, g.getD i 0 * 58 ^ (g.length - 1 - i))
  ∧ (∀ v, val58 (digits58 v) = v)

/-- The byte-array procedures of R158 compute the same as the number form: `digits58_bytes(b)` is `digits58(nat(b))`,
and `val58_bytes(g, L)` with room for `len(g)` bytes is `bytes_min(val58(g))` padded on the left to `L` bytes. -/
def Obligations.ByteArrayConversionAgrees : Prop :=
  (∀ b : List Byte, digits58Bytes b = digits58 (natOf b))
  ∧ (∀ (g : List Nat) (room : Nat), (∀ x ∈ g, x < 58) → g.length ≤ room →
      (bytesMin (val58 g)).length ≤ room
        ∧ val58Bytes g room = List.replicate (room - (bytesMin (val58 g)).length) 0 ++ bytesMin (val58 g))

/-- B58ENC (R155): the result is the Base-58 string of the payload; CONFIG on an empty slot comes first, a result longer
than CAP is CAPACITY. -/
def Obligations.B58encConvertsTheRadix : Prop :=
  (∀ a, a ≠ .hex → (encode (.b58enc a), Instr.b58enc a) ∈ legalTable) ∧
  ∀ (a : ASel) (s : State),
    (a = .cus → s.slot58.valid = false → exec (.b58enc a) s = .next (s.raise .config) ∧ (s.raise .config).err = 3)
    ∧ ∀ A : List Byte, alpha58 a s = .ok A →
        ∃ out : List Byte, IsBase58String A (input s) out
          ∧ (out.length ≤ Config.CAP →
              exec (.b58enc a) s = .next (s.withOutput out) ∧ statusErrf (s.withOutput out) = false)
          ∧ (Config.CAP < out.length → exec (.b58enc a) s = .next (s.raise .capacity) ∧ (s.raise .capacity).err = 5)

/-- B58DEC (R156): a string over the alphabet decodes to as many zero bytes as it has leading zero-index symbols,
followed by the minimal bytes of its value, and the result is no longer than the string; CONFIG on an empty slot comes
first, a symbol outside the alphabet is FORMAT. -/
def Obligations.B58decConvertsTheRadix : Prop :=
  (∀ a, a ≠ .hex → (encode (.b58dec a), Instr.b58dec a) ∈ legalTable) ∧
  ∀ (a : ASel) (s : State),
    (a = .cus → s.slot58.valid = false → exec (.b58dec a) s = .next (s.raise .config) ∧ (s.raise .config).err = 3)
    ∧ ∀ A : List Byte, alpha58 a s = .ok A →
        ((∃ c ∈ input s, c ∉ A) →
          exec (.b58dec a) s = .next (s.raise .format) ∧ (s.raise .format).err = 1
            ∧ statusErrf (s.raise .format) = true)
        ∧ ((∀ c ∈ input s, c ∈ A) →
          ∃ out : List Byte, IsBase58Decoding A (input s) out
            ∧ (s.Inv → out.length ≤ (input s).length)
            ∧ exec (.b58dec a) s = .next (s.withOutput out) ∧ statusErrf (s.withOutput out) = false)

/-- The lengths of R157 (c): with `z` leading zero bytes of `n`, the number `k` of base-58 digits satisfies
`n - z <= k <= floor(138*(n-z)/100) + 1`, and `k = 0` when `n = z`; so R205's sufficient bound keeps B58ENC within
CAP. -/
def Obligations.B58LengthBounds : Prop :=
  (∀ b : List Byte, b.length - lz b ≤ (digits58 (natOf b)).length
    ∧ (digits58 (natOf b)).length ≤ 138 * (b.length - lz b) / 100 + 1
    ∧ (b.length = lz b → digits58 (natOf b) = []))
  ∧ (∀ (a : ASel) (s : State) (A : List Byte), alpha58 a s = .ok A →
      138 * ((input s).length + 4) / 100 + 1 ≤ Config.CAP →
      (∃ t, exec (.b58enc a) s = .next t ∧ t.err = 0) ∧ (∃ t, exec (.b58cenc a) s = .next t ∧ t.err = 0))

/-- B58ENC and B58DEC are inverse to each other on the machine (R157 (a), (b)): decoding the string B58ENC left gives
back the payload, and encoding the bytes B58DEC left gives back the string, under the same alphabet. -/
def Obligations.B58EncodeAndDecodeAreInverse : Prop :=
  ∀ (a a' : ASel) (s t u : State) (out : List Byte), s.Inv → t.HoldsOutput out → input u = out →
    alpha58 a' u = alpha58 a s →
    (exec (.b58enc a) s = .next t → exec (.b58dec a') u = .next (u.withOutput (input s)))
    ∧ (exec (.b58dec a) s = .next t → exec (.b58enc a') u = .next (u.withOutput (input s)))

/-! ## The checksum -/

/-- B58CENC (R172, R170): the result is the Base-58 string of the payload followed by the first 4 bytes of
`H(H(payload))`; CONFIG on an empty slot comes first, and only the final string is compared with CAP. -/
def Obligations.B58cencAppendsTheChecksum : Prop :=
  (∀ a, a ≠ .hex → (encode (.b58cenc a), Instr.b58cenc a) ∈ legalTable) ∧
  ∀ (a : ASel) (s : State),
    (a = .cus → s.slot58.valid = false → exec (.b58cenc a) s = .next (s.raise .config) ∧ (s.raise .config).err = 3)
    ∧ ∀ A : List Byte, alpha58 a s = .ok A →
        ∃ c out : List Byte, c = (Config.H (Config.H (input s))).take 4 ∧ c.length = 4
          ∧ IsBase58String A (input s ++ c) out
          ∧ (out.length ≤ Config.CAP →
              exec (.b58cenc a) s = .next (s.withOutput out) ∧ statusErrf (s.withOutput out) = false)
          ∧ (Config.CAP < out.length → exec (.b58cenc a) s = .next (s.raise .capacity) ∧ (s.raise .capacity).err = 5)

/-- B58CDEC (R173): after B58DEC's checks, fewer than 4 decoded bytes is FORMAT, last 4 bytes that differ from the
first 4 of `H(H(rest))` are CHECKSUM, and otherwise the result is the rest; CONFIG on an empty slot comes first and a
symbol outside the alphabet is FORMAT whatever the checksum. -/
def Obligations.B58cdecVerifiesTheChecksum : Prop :=
  (∀ a, a ≠ .hex → (encode (.b58cdec a), Instr.b58cdec a) ∈ legalTable) ∧
  ∀ (a : ASel) (s : State),
    (a = .cus → s.slot58.valid = false → exec (.b58cdec a) s = .next (s.raise .config) ∧ (s.raise .config).err = 3)
    ∧ ∀ A : List Byte, alpha58 a s = .ok A →
        ((∃ c ∈ input s, c ∉ A) →
          exec (.b58cdec a) s = .next (s.raise .format) ∧ (s.raise .format).err = 1
            ∧ statusErrf (s.raise .format) = true)
        ∧ ((∀ c ∈ input s, c ∈ A) →
          ∃ d : List Byte, IsBase58Decoding A (input s) d
            ∧ (d.length < 4 → exec (.b58cdec a) s = .next (s.raise .format))
            ∧ ∀ p c : List Byte, d = p ++ c → c.length = 4 →
                ((Config.H (Config.H p)).take 4 ≠ c →
                  exec (.b58cdec a) s = .next (s.raise .checksum) ∧ (s.raise .checksum).err = 2
                    ∧ statusErrf (s.raise .checksum) = true)
                ∧ ((Config.H (Config.H p)).take 4 = c →
                  exec (.b58cdec a) s = .next (s.withOutput p) ∧ statusErrf (s.withOutput p) = false))

/-- A checksummed string decodes to its payload on the machine (R174 (a)): if B58CENC left a string and that string is
the input of a B58CDEC under the same alphabet, B58CDEC gives back the payload. -/
def Obligations.ChecksumRoundTrip : Prop :=
  ∀ (a a' : ASel) (s t u : State) (out : List Byte), s.Inv → exec (.b58cenc a) s = .next t → t.HoldsOutput out →
    input u = out → alpha58 a' u = alpha58 a s → exec (.b58cdec a') u = .next (u.withOutput (input s))

/-- For every hash function with digests of at least 4 bytes, every alphabet and every capacity (R174 (b), (c)):
B58CENC of `p` is B58ENC of `p` with its checksum; and if B58DEC gives at least 4 bytes `p ++ c`, B58CDEC succeeds
exactly when `c` is the checksum of `p`, with the result `p`. -/
def Obligations.ChecksumWrapsBase58 : Prop :=
  ∀ (H : List Byte → List Byte) (cap : Nat) (A : List Byte), (∀ m, 4 ≤ (H m).length) → IsAlphabet 58 A →
    (∀ p, b58cenc H cap A p = b58enc cap A (p ++ (H (H p)).take 4))
    ∧ (∀ s p c : List Byte, b58dec A s = .ok (p ++ c) → c.length = 4 →
        ((∃ out, b58cdec H A s = .ok out) ↔ c = (H (H p)).take 4)
          ∧ (c = (H (H p)).take 4 → b58cdec H A s = .ok p))
    ∧ (∀ p s : List Byte, b58cenc H cap A p = .ok s → b58cdec H A s = .ok p)

/-! ## The host port -/

/-- A write to CMD while IDLE stores all 32 bits, whatever they are, and sets PHASE to BUSY; no other register, buffer
or slot changes and nothing is returned (R22, R57). -/
def Obligations.CmdWriteStartsTheCommand : Prop :=
  ∀ (s : State) (v : Word) (rest : List HostLine), s.phase = .idle → s.port = .access (.wr 0 v) :: rest →
    ∃ d f : Nat, step s = .next { s with cmd := v, phase := .busy, port := rest, delay := d, fresh := f }

/-- A write to IN_LEN while IDLE takes a value up to CAP and ignores a greater one; writes to STATUS, ERR, OUT_LEN and
to undefined registers are ignored; none of them raises anything (R25, R57, R65). -/
def Obligations.InLenTakesValuesUpToCap : Prop :=
  ∀ (s : State) (k : Nat) (v : Word) (rest : List HostLine), s.phase = .idle → k ≠ 0 →
    s.port = .access (.wr k v) :: rest →
    ∃ f : Nat,
      (k = 3 ∧ v.toNat ≤ Config.CAP → step s = .next { s with inLen := v, port := rest, fresh := f })
      ∧ (¬(k = 3 ∧ v.toNat ≤ Config.CAP) → step s = .next { s with port := rest, fresh := f })

/-- A write to IN[i] while IDLE with `i < CAP` makes IN[i] the value and leaves every other unit as it was; at or above
CAP it is ignored; no register, no slot and no unit of OUT changes (R28, R57). -/
def Obligations.WinWritesOneUnit : Prop :=
  ∀ (s : State) (i : Nat) (v : Byte) (rest : List HostLine), s.phase = .idle → s.port = .access (.win i v) :: rest →
    ∃ (m : Memory) (f : Nat), step s = .next { s with inBuf := m, port := rest, fresh := f }
      ∧ (i < Config.CAP → ∀ j, inUnit { s with inBuf := m, port := rest, fresh := f } j = if j = i then v else inUnit s j)
      ∧ (Config.CAP ≤ i → m = s.inBuf)

/-- Every write while BUSY is ignored: it changes nothing, is not queued and is not replayed (R59, R235). -/
def Obligations.WritesWhileBusyAreLost : Prop :=
  ∀ (s : State) (op : HostOp) (rest : List HostLine), s.phase = .busy → s.delay ≠ 0 →
    (∃ k v, op = .wr k v) ∨ (∃ i v, op = .win i v) → s.port = .access op :: rest →
    ∃ f : Nat, step s = .next { s with port := rest, delay := s.delay - 1, fresh := f }

/-- A read changes nothing but what the host has read, in either phase; it returns one value (R57, R59). -/
def Obligations.ReadsHaveNoSideEffect : Prop :=
  ∀ (s : State) (op : HostOp) (rest : List HostLine), hostDue s →
    (∃ k, op = .rd k) ∨ (∃ i, op = .rin i) ∨ (∃ i, op = .rout i) → s.port = .access op :: rest →
    ∃ (r : Reply) (d f : Nat),
      step s = .next { s with port := rest, replies := r :: s.replies, delay := d, fresh := f }

/-- The values register reads return. CMD, STATUS and IN_LEN in either phase; ERR with zeros above its code and OUT_LEN
while IDLE; 0 from an undefined register (R22 to R25, R57, R59, R65; while BUSY the value of an undefined register
follows R65, log entry 11). -/
def Obligations.RegisterReads : Prop :=
  ∀ (s : State) (k : Nat) (rest : List HostLine), hostDue s → s.port = .access (.rd k) :: rest →
    ∃ t : State, step s = .next t
      ∧ (k = 0 → t.replies = .reg s.cmd :: s.replies)
      ∧ (k = 1 → t.replies = .reg (statusReg s) :: s.replies)
      ∧ (k = 2 → s.phase = .idle → ∃ v : Word, v.toNat = s.err.toNat ∧ t.replies = .reg v :: s.replies)
      ∧ (k = 3 → t.replies = .reg s.inLen :: s.replies)
      ∧ (k = 4 → s.phase = .idle → t.replies = .reg s.outLen :: s.replies)
      ∧ (5 ≤ k → t.replies = .reg 0 :: s.replies)

/-- The bits of STATUS (R23): BUSY, ERRF (IDLE and ERR not 0), V32, V58, and zeros above. -/
def Obligations.StatusBits : Prop :=
  ∀ s : State,
    ((statusReg s).getLsbD 0 = true ↔ s.phase = .busy)
    ∧ ((statusReg s).getLsbD 1 = true ↔ s.phase = .idle ∧ s.err ≠ 0)
    ∧ ((statusReg s).getLsbD 2 = true ↔ s.slot32.valid = true)
    ∧ ((statusReg s).getLsbD 3 = true ↔ s.slot58.valid = true)
    ∧ (∀ i, 4 ≤ i → (statusReg s).getLsbD i = false)
    ∧ statusReg State.reset = 0

/-- What buffer reads return: RIN gives IN[i] in either phase for `i < CAP`, and ROUT gives unit `i` of the output while
IDLE, for every `i` below its length (R28, R29, R57, R59). -/
def Obligations.BufferReads : Prop :=
  ∀ (s : State) (rest : List HostLine),
    (∀ i, i < Config.CAP → hostDue s → s.port = .access (.rin i) :: rest →
      ∃ t, step s = .next t ∧ t.replies = .unit (inUnit s i) :: s.replies)
    ∧ (∀ (i : Nat) (out : List Byte) (c : Byte), s.phase = .idle → s.HoldsOutput out → out[i]? = some c →
        s.port = .access (.rout i) :: rest → ∃ t, step s = .next t ∧ t.replies = .unit c :: s.replies)

/-- A command's output is what the host then reads: after a command that left `out` with at most CAP units, ERR is 0,
OUT_LEN is its length and OUT[i] is its unit `i`; and a state holds at most one output (R27, R29, R219). -/
def Obligations.FinishedOutputIsHeld : Prop :=
  (∀ (s : State) (out : List Byte), out.length ≤ Config.CAP → (s.withOutput out).HoldsOutput out)
  ∧ (∀ (s : State) (out out' : List Byte), s.HoldsOutput out → s.HoldsOutput out' → out = out')

/-! ## Runs -/

/-- While a command is in flight nothing but a reset changes its inputs: a step that is not the engine's and serves no
reset keeps CMD, IN_LEN, IN and both slots, stays BUSY, and brings the engine's step one nearer (R59, R63). -/
def Obligations.InputsAreStableWhileBusy : Prop :=
  ∀ s : State, s.phase = .busy → s.delay ≠ 0 → s.port.head? ≠ some .reset →
    ∃ t, step s = .next t ∧ t.phase = .busy ∧ t.delay + 1 = s.delay ∧ t.cmd = s.cmd ∧ t.inLen = s.inLen
      ∧ t.inBuf = s.inBuf ∧ t.slot32 = s.slot32 ∧ t.slot58 = s.slot58 ∧ t.epoch = s.epoch
      ∧ t.err = s.err ∧ t.outLen = s.outLen ∧ t.outBuf = s.outBuf

/-- A command in flight completes, and its result is the one its inputs had at the CMD write, whatever the host does
meanwhile short of a reset (R27, R244). Assuming the hash port answers: for B58CENC and B58CDEC this rests on H being a
total function (93_implementation_defined.md U6, log entry 2). The number of steps is the model's (log entry 7). -/
def Obligations.CommandInFlightCompletes : Prop :=
  ∀ s : State, s.phase = .busy → .reset ∉ s.port →
    ∃ t u : State, stepN (s.delay + 1) s = .next t ∧ engineStep s = .next u
      ∧ t.phase = .idle ∧ t.cmd = s.cmd ∧ t.inLen = s.inLen ∧ t.inBuf = s.inBuf
      ∧ t.err = u.err ∧ t.outLen = u.outLen ∧ t.outBuf = u.outBuf ∧ t.slot32 = u.slot32 ∧ t.slot58 = u.slot58

/-- WAIT reads STATUS until its bit 0 is 0, and ends (R94, R244): what it reads is the STATUS of its start, with BUSY =
1, zero or more times, and then the STATUS of its end, with BUSY = 0; at its end PHASE = IDLE and the lines after it
are left. Assuming the hash port answers: while a B58CENC or B58CDEC is in flight this rests on H being a total function
(93_implementation_defined.md U6, log entry 2). The queue, the delay and WAIT as a line are the model's (log entries 7,
8 and 19). -/
def Obligations.WaitEndsWhenIdle : Prop :=
  ∀ (s : State) (rest : List HostLine), s.port = .wait :: rest →
    ∃ (k n : Nat) (t : State), stepN k s = .next t
      ∧ t.phase = .idle ∧ t.port = rest
      ∧ t.replies = .reg (statusReg t) :: (List.replicate n (.reg (statusReg s)) ++ s.replies)
      ∧ (statusReg t).getLsbD 0 = false ∧ (0 < n → (statusReg s).getLsbD 0 = true)

/-- The end of a run (R246). Every host program's run ends. A program whose last line is a CMD write, accepted or not,
ends with a command in flight, so it does not end cleanly, whatever the engine does afterwards; a program whose last
line is WAIT ends with PHASE = IDLE, cleanly. Assuming the hash port answers: a WAIT for B58CENC or B58CDEC rests on H
being a total function (93_implementation_defined.md U6, log entry 2). The queue, the delay and WAIT as a line are the
model's (log entries 7, 8 and 19). -/
def Obligations.RunEndsWithItsLastLine : Prop :=
  ∀ s : State,
    (∃ t, s.RunEndsAt t)
    ∧ (∀ (before : List HostLine) (v : Word) (t : State), s.port = before ++ [.access (.wr 0 v)] → s.RunEndsAt t →
        t.phase = .busy ∧ ¬s.EndsCleanly)
    ∧ (∀ (before : List HostLine) (t : State), s.port = before ++ [.wait] → s.RunEndsAt t →
        t.phase = .idle ∧ s.EndsCleanly)

/-- LDIN loads a sequence and nothing else: after its lines are served IN[0..IN_LEN) is the sequence, the units of IN
above it are as before (R238), and so are CMD, ERR, OUT_LEN, OUT and the slots (R94, R57; log entries 8 and 19). -/
def Obligations.LdinLoadsTheInput : Prop :=
  ∀ (s : State) (us : List Byte) (rest : List HostLine), s.phase = .idle → us.length ≤ Config.CAP →
    s.port = ldin us ++ rest →
    ∃ t : State, stepN (us.length + 1) s = .next t
      ∧ input t = us ∧ (∀ j, us.length ≤ j → inUnit t j = inUnit s j)
      ∧ t.phase = .idle ∧ t.port = rest ∧ t.cmd = s.cmd ∧ t.err = s.err
      ∧ t.outLen = s.outLen ∧ t.outBuf = s.outBuf ∧ t.slot32 = s.slot32 ∧ t.slot58 = s.slot58
      ∧ t.replies = s.replies

/-- Reset values (R34), and the reset input from any state in which the host is served, in either phase: a command in
flight is abandoned, both slots are empty, IN holds no unit written before and OUT no output (R230). -/
def Obligations.ResetValues : Prop :=
  (State.reset.phase = .idle ∧ State.reset.cmd = 0 ∧ State.reset.err = 0 ∧ State.reset.inLen = 0
    ∧ State.reset.outLen = 0 ∧ statusReg State.reset = 0 ∧ State.reset.slot32.valid = false
    ∧ State.reset.slot58.valid = false)
  ∧ ∀ (s : State) (rest : List HostLine), hostDue s → s.port = .reset :: rest →
      ∃ t, step s = .next t ∧ t.phase = .idle ∧ t.cmd = 0 ∧ t.err = 0 ∧ t.inLen = 0 ∧ t.outLen = 0
        ∧ statusReg t = 0 ∧ t.slot32.valid = false ∧ t.slot58.valid = false ∧ t.inBuf = [] ∧ t.outBuf = []
        ∧ t.port = rest

/-- The invariant holds at reset (R35). -/
def Obligations.ResetMeetsTheInvariant : Prop := State.reset.Inv

/-- Every step keeps the invariant (R35): from every state that meets it, whatever the host does. -/
def Obligations.StepKeepsTheInvariant : Prop :=
  ∀ s t : State, s.Inv → step s = .next t → t.Inv

/-- Every reachable state meets the invariant (R35): whatever the host does from reset on, and however far the run has
gone. -/
def Obligations.ReachableStatesMeetTheInvariant : Prop :=
  ∀ (lines : List HostLine) (k : Nat) (t : State), stepN k { State.reset with port := lines } = .next t → t.Inv

/-- The machine never stops: every step from every state answers a next state, so there is no fault and no refusal
(R65, R200). -/
def Obligations.NoStepStops : Prop := ∀ s : State, ∃ t, step s = .next t

/-- Instances do not interfere (R214): under any interleaving of the instances' steps, each instance ends in the state
it would reach alone with as many steps. -/
def Obligations.InstancesDoNotInterfere : Prop :=
  ∀ (y : System) (schedule : List Nat) (k : Nat),
    (y.runSchedule schedule)[k]? = y[k]?.map (advanceN (schedule.count k))
end

