-- ==== Sys2Proof/Laws/Memory.lean ====
section
/-! SUPPORT. The laws of the buffers: a read after a write, every operation keeps the canonical form, and what the
buffer of a sequence holds. -/

namespace Sys2Proof.Machine.Memory

@[simp] theorem read?_nil (a : Nat) : read? [] a = none := rfl

theorem read?_cons (b : Nat) (v : Byte) (m : Memory) (a : Nat) :
    read? ((b, v) :: m) a = if a = b then some v else read? m a := rfl

/-- A write is read back, and every other index reads as before. -/
theorem read?_write (m : Memory) (a : Nat) (v : Byte) (j : Nat) :
    (m.write a v).read? j = if j = a then some v else m.read? j := by
  induction m with
  | nil => simp [write, read?]
  | cons c m ih =>
    obtain ⟨b, u⟩ := c
    simp only [write]
    split
    · simp [read?]
    · split
      · subst_vars
        simp only [read?]
        split <;> rfl
      · simp only [read?, ih]
        split <;> split <;> first | rfl | omega

/-- The indices a write leaves are those before it and its own. -/
theorem fst_mem_write {m : Memory} {a : Nat} {v : Byte} {c : Host.Cell} (h : c ∈ m.write a v) :
    c.1 = a ∨ ∃ d ∈ m, d.1 = c.1 := by
  induction m with
  | nil => simp [write] at h; simp [h]
  | cons e m ih =>
    obtain ⟨b, u⟩ := e
    simp only [write] at h
    split at h
    · rcases List.mem_cons.1 h with rfl | h
      · exact .inl rfl
      · exact .inr ⟨c, h, rfl⟩
    · split at h
      · rcases List.mem_cons.1 h with rfl | h
        · exact .inl rfl
        · exact .inr ⟨c, List.mem_cons_of_mem _ h, rfl⟩
      · rcases List.mem_cons.1 h with rfl | h
        · exact .inr ⟨_, List.mem_cons_self .., rfl⟩
        · rcases ih h with h | ⟨d, hd, he⟩
          · exact .inl h
          · exact .inr ⟨d, List.mem_cons_of_mem _ hd, he⟩

/-- A write keeps the canonical form. -/
theorem wf_write {m : Memory} (a : Nat) (v : Byte) (h : wf m) : wf (m.write a v) := by
  induction m with
  | nil => simp [write, wf]
  | cons c m ih =>
    obtain ⟨b, u⟩ := c
    obtain ⟨hc, hm⟩ := List.pairwise_cons.1 h
    simp only [write]
    split
    · refine List.pairwise_cons.2 ⟨fun d hd => ?_, h⟩
      rcases List.mem_cons.1 hd with rfl | hd
      · assumption
      · exact Nat.lt_trans ‹_› (hc d hd)
    · split
      · subst_vars
        exact List.pairwise_cons.2 ⟨hc, hm⟩
      · refine List.pairwise_cons.2 ⟨fun d hd => ?_, ih hm⟩
        rcases fst_mem_write hd with h' | ⟨e, he, h'⟩
        · show b < d.1
          omega
        · exact h' ▸ hc e he

/-- The buffer of a sequence reads as the sequence, and is unlisted elsewhere. -/
theorem read?_ofUnitsFrom (us : List Byte) (i a : Nat) :
    (ofUnitsFrom i us).read? a = if i ≤ a then us[a - i]? else none := by
  induction us generalizing i with
  | nil => simp [ofUnitsFrom]
  | cons u us ih =>
    simp only [ofUnitsFrom, read?, ih]
    split
    · subst_vars; simp
    · split
      · rw [if_pos (by omega), show a - i = (a - (i + 1)) + 1 by omega, List.getElem?_cons_succ]
      · rw [if_neg (by omega)]

@[simp] theorem read?_ofUnits (us : List Byte) (a : Nat) : (ofUnits us).read? a = us[a]? := by
  simp [ofUnits, read?_ofUnitsFrom]

theorem map_fst_ofUnitsFrom (us : List Byte) (i : Nat) :
    (ofUnitsFrom i us).map Prod.fst = List.range' i us.length := by
  induction us generalizing i with
  | nil => rfl
  | cons u us ih => simp [ofUnitsFrom, ih, List.range'_succ]

/-- The buffer of a sequence lists exactly the indices below its length. -/
@[simp] theorem map_fst_ofUnits (us : List Byte) : (ofUnits us).map Prod.fst = List.range us.length := by
  simp [ofUnits, map_fst_ofUnitsFrom, List.range_eq_range']

/-- A buffer whose indices are 0, 1, … is in the canonical form. -/
theorem wf_of_map_fst {m : Memory} {n : Nat} (h : m.map Prod.fst = List.range n) : wf m := by
  have := List.pairwise_lt_range (n := n)
  rw [← h, List.pairwise_map] at this
  exact this

theorem wf_ofUnits (us : List Byte) : wf (ofUnits us) := wf_of_map_fst (map_fst_ofUnits us)

/-- An index no cell carries is unlisted. -/
theorem read?_eq_none {m : Memory} {a : Nat} (h : a ∉ m.map Prod.fst) : m.read? a = none := by
  induction m with
  | nil => rfl
  | cons c m ih =>
    obtain ⟨b, u⟩ := c
    simp only [List.map_cons, List.mem_cons, not_or] at h
    simp [read?, h.1, ih h.2]

end Sys2Proof.Machine.Memory
end

