-- ==== Sys2Proof/Laws/State.lean ====
section
/-! SUPPORT. What each update of the state leaves in each field: one lemma a field and update, true by rfl, so that no
later proof unfolds an update. -/

namespace Sys2Proof.Machine

/-! ### Error entry (R206) -/

@[simp] theorem State.raise_phase (e : ErrKind) (s : State) : (s.raise e).phase = .idle := rfl
@[simp] theorem State.raise_cmd (e : ErrKind) (s : State) : (s.raise e).cmd = s.cmd := rfl
@[simp] theorem State.raise_err (e : ErrKind) (s : State) : (s.raise e).err = e.code := rfl
@[simp] theorem State.raise_inLen (e : ErrKind) (s : State) : (s.raise e).inLen = s.inLen := rfl
@[simp] theorem State.raise_outLen (e : ErrKind) (s : State) : (s.raise e).outLen = 0 := rfl
@[simp] theorem State.raise_inBuf (e : ErrKind) (s : State) : (s.raise e).inBuf = s.inBuf := rfl
@[simp] theorem State.raise_outBuf (e : ErrKind) (s : State) : (s.raise e).outBuf = [] := rfl
@[simp] theorem State.raise_slot32 (e : ErrKind) (s : State) : (s.raise e).slot32 = s.slot32 := rfl
@[simp] theorem State.raise_slot58 (e : ErrKind) (s : State) : (s.raise e).slot58 = s.slot58 := rfl
@[simp] theorem State.raise_delay (e : ErrKind) (s : State) : (s.raise e).delay = s.delay := rfl
@[simp] theorem State.raise_fresh (e : ErrKind) (s : State) : (s.raise e).fresh = s.fresh := rfl
@[simp] theorem State.raise_epoch (e : ErrKind) (s : State) : (s.raise e).epoch = s.epoch := rfl
@[simp] theorem State.raise_port (e : ErrKind) (s : State) : (s.raise e).port = s.port := rfl
@[simp] theorem State.raise_replies (e : ErrKind) (s : State) : (s.raise e).replies = s.replies := rfl

/-! ### A finished output (R27) -/

@[simp] theorem State.withOutput_phase (out : List Byte) (s : State) : (s.withOutput out).phase = .idle := rfl
@[simp] theorem State.withOutput_cmd (out : List Byte) (s : State) : (s.withOutput out).cmd = s.cmd := rfl
@[simp] theorem State.withOutput_err (out : List Byte) (s : State) : (s.withOutput out).err = 0 := rfl
@[simp] theorem State.withOutput_inLen (out : List Byte) (s : State) : (s.withOutput out).inLen = s.inLen := rfl
@[simp] theorem State.withOutput_outLen (out : List Byte) (s : State) : (s.withOutput out).outLen = BitVec.ofNat 32 out.length := rfl
@[simp] theorem State.withOutput_inBuf (out : List Byte) (s : State) : (s.withOutput out).inBuf = s.inBuf := rfl
@[simp] theorem State.withOutput_outBuf (out : List Byte) (s : State) : (s.withOutput out).outBuf = Memory.ofUnits out := rfl
@[simp] theorem State.withOutput_slot32 (out : List Byte) (s : State) : (s.withOutput out).slot32 = s.slot32 := rfl
@[simp] theorem State.withOutput_slot58 (out : List Byte) (s : State) : (s.withOutput out).slot58 = s.slot58 := rfl
@[simp] theorem State.withOutput_delay (out : List Byte) (s : State) : (s.withOutput out).delay = s.delay := rfl
@[simp] theorem State.withOutput_fresh (out : List Byte) (s : State) : (s.withOutput out).fresh = s.fresh := rfl
@[simp] theorem State.withOutput_epoch (out : List Byte) (s : State) : (s.withOutput out).epoch = s.epoch := rfl
@[simp] theorem State.withOutput_port (out : List Byte) (s : State) : (s.withOutput out).port = s.port := rfl
@[simp] theorem State.withOutput_replies (out : List Byte) (s : State) : (s.withOutput out).replies = s.replies := rfl

/-! ### A loaded SLOT32 (R27, R108) -/

@[simp] theorem State.withSlot32_phase (tab : Vector Byte 32) (s : State) : (s.withSlot32 tab).phase = .idle := rfl
@[simp] theorem State.withSlot32_cmd (tab : Vector Byte 32) (s : State) : (s.withSlot32 tab).cmd = s.cmd := rfl
@[simp] theorem State.withSlot32_err (tab : Vector Byte 32) (s : State) : (s.withSlot32 tab).err = 0 := rfl
@[simp] theorem State.withSlot32_inLen (tab : Vector Byte 32) (s : State) : (s.withSlot32 tab).inLen = s.inLen := rfl
@[simp] theorem State.withSlot32_outLen (tab : Vector Byte 32) (s : State) : (s.withSlot32 tab).outLen = 0 := rfl
@[simp] theorem State.withSlot32_inBuf (tab : Vector Byte 32) (s : State) : (s.withSlot32 tab).inBuf = s.inBuf := rfl
@[simp] theorem State.withSlot32_outBuf (tab : Vector Byte 32) (s : State) : (s.withSlot32 tab).outBuf = [] := rfl
@[simp] theorem State.withSlot32_slot32 (tab : Vector Byte 32) (s : State) : (s.withSlot32 tab).slot32 = { tab := tab, valid := true } := rfl
@[simp] theorem State.withSlot32_slot58 (tab : Vector Byte 32) (s : State) : (s.withSlot32 tab).slot58 = s.slot58 := rfl
@[simp] theorem State.withSlot32_delay (tab : Vector Byte 32) (s : State) : (s.withSlot32 tab).delay = s.delay := rfl
@[simp] theorem State.withSlot32_fresh (tab : Vector Byte 32) (s : State) : (s.withSlot32 tab).fresh = s.fresh := rfl
@[simp] theorem State.withSlot32_epoch (tab : Vector Byte 32) (s : State) : (s.withSlot32 tab).epoch = s.epoch := rfl
@[simp] theorem State.withSlot32_port (tab : Vector Byte 32) (s : State) : (s.withSlot32 tab).port = s.port := rfl
@[simp] theorem State.withSlot32_replies (tab : Vector Byte 32) (s : State) : (s.withSlot32 tab).replies = s.replies := rfl

/-! ### A loaded SLOT58 (R27, R109) -/

@[simp] theorem State.withSlot58_phase (tab : Vector Byte 58) (s : State) : (s.withSlot58 tab).phase = .idle := rfl
@[simp] theorem State.withSlot58_cmd (tab : Vector Byte 58) (s : State) : (s.withSlot58 tab).cmd = s.cmd := rfl
@[simp] theorem State.withSlot58_err (tab : Vector Byte 58) (s : State) : (s.withSlot58 tab).err = 0 := rfl
@[simp] theorem State.withSlot58_inLen (tab : Vector Byte 58) (s : State) : (s.withSlot58 tab).inLen = s.inLen := rfl
@[simp] theorem State.withSlot58_outLen (tab : Vector Byte 58) (s : State) : (s.withSlot58 tab).outLen = 0 := rfl
@[simp] theorem State.withSlot58_inBuf (tab : Vector Byte 58) (s : State) : (s.withSlot58 tab).inBuf = s.inBuf := rfl
@[simp] theorem State.withSlot58_outBuf (tab : Vector Byte 58) (s : State) : (s.withSlot58 tab).outBuf = [] := rfl
@[simp] theorem State.withSlot58_slot32 (tab : Vector Byte 58) (s : State) : (s.withSlot58 tab).slot32 = s.slot32 := rfl
@[simp] theorem State.withSlot58_slot58 (tab : Vector Byte 58) (s : State) : (s.withSlot58 tab).slot58 = { tab := tab, valid := true } := rfl
@[simp] theorem State.withSlot58_delay (tab : Vector Byte 58) (s : State) : (s.withSlot58 tab).delay = s.delay := rfl
@[simp] theorem State.withSlot58_fresh (tab : Vector Byte 58) (s : State) : (s.withSlot58 tab).fresh = s.fresh := rfl
@[simp] theorem State.withSlot58_epoch (tab : Vector Byte 58) (s : State) : (s.withSlot58 tab).epoch = s.epoch := rfl
@[simp] theorem State.withSlot58_port (tab : Vector Byte 58) (s : State) : (s.withSlot58 tab).port = s.port := rfl
@[simp] theorem State.withSlot58_replies (tab : Vector Byte 58) (s : State) : (s.withSlot58 tab).replies = s.replies := rfl

/-! ### An accepted CMD write (R22) -/

@[simp] theorem startCommand_phase (s : State) (v : Word) : (startCommand s v).phase = .busy := rfl
@[simp] theorem startCommand_cmd (s : State) (v : Word) : (startCommand s v).cmd = v := rfl
@[simp] theorem startCommand_err (s : State) (v : Word) : (startCommand s v).err = s.err := rfl
@[simp] theorem startCommand_inLen (s : State) (v : Word) : (startCommand s v).inLen = s.inLen := rfl
@[simp] theorem startCommand_outLen (s : State) (v : Word) : (startCommand s v).outLen = s.outLen := rfl
@[simp] theorem startCommand_inBuf (s : State) (v : Word) : (startCommand s v).inBuf = s.inBuf := rfl
@[simp] theorem startCommand_outBuf (s : State) (v : Word) : (startCommand s v).outBuf = s.outBuf := rfl
@[simp] theorem startCommand_slot32 (s : State) (v : Word) : (startCommand s v).slot32 = s.slot32 := rfl
@[simp] theorem startCommand_slot58 (s : State) (v : Word) : (startCommand s v).slot58 = s.slot58 := rfl
@[simp] theorem startCommand_delay (s : State) (v : Word) : (startCommand s v).delay = Config.engineDelay s.fresh := rfl
@[simp] theorem startCommand_fresh (s : State) (v : Word) : (startCommand s v).fresh = s.fresh := rfl
@[simp] theorem startCommand_epoch (s : State) (v : Word) : (startCommand s v).epoch = s.epoch := rfl
@[simp] theorem startCommand_port (s : State) (v : Word) : (startCommand s v).port = s.port := rfl
@[simp] theorem startCommand_replies (s : State) (v : Word) : (startCommand s v).replies = s.replies := rfl

/-! ### A step of waiting (R245) -/

@[simp] theorem passTime_phase (s : State) : (passTime s).phase = s.phase := rfl
@[simp] theorem passTime_cmd (s : State) : (passTime s).cmd = s.cmd := rfl
@[simp] theorem passTime_err (s : State) : (passTime s).err = s.err := rfl
@[simp] theorem passTime_inLen (s : State) : (passTime s).inLen = s.inLen := rfl
@[simp] theorem passTime_outLen (s : State) : (passTime s).outLen = s.outLen := rfl
@[simp] theorem passTime_inBuf (s : State) : (passTime s).inBuf = s.inBuf := rfl
@[simp] theorem passTime_outBuf (s : State) : (passTime s).outBuf = s.outBuf := rfl
@[simp] theorem passTime_slot32 (s : State) : (passTime s).slot32 = s.slot32 := rfl
@[simp] theorem passTime_slot58 (s : State) : (passTime s).slot58 = s.slot58 := rfl
@[simp] theorem passTime_delay (s : State) : (passTime s).delay = s.delay - 1 := rfl
@[simp] theorem passTime_fresh (s : State) : (passTime s).fresh = s.fresh := rfl
@[simp] theorem passTime_epoch (s : State) : (passTime s).epoch = s.epoch := rfl
@[simp] theorem passTime_port (s : State) : (passTime s).port = s.port := rfl
@[simp] theorem passTime_replies (s : State) : (passTime s).replies = s.replies := rfl

/-! ### The reset input (R230) -/

@[simp] theorem resetInput_phase (s : State) : (resetInput s).phase = .idle := rfl
@[simp] theorem resetInput_cmd (s : State) : (resetInput s).cmd = 0 := rfl
@[simp] theorem resetInput_err (s : State) : (resetInput s).err = 0 := rfl
@[simp] theorem resetInput_inLen (s : State) : (resetInput s).inLen = 0 := rfl
@[simp] theorem resetInput_outLen (s : State) : (resetInput s).outLen = 0 := rfl
@[simp] theorem resetInput_inBuf (s : State) : (resetInput s).inBuf = [] := rfl
@[simp] theorem resetInput_outBuf (s : State) : (resetInput s).outBuf = [] := rfl
@[simp] theorem resetInput_slot32 (s : State) : (resetInput s).slot32 = { tab := Config.slot32PowerOn (s.epoch + 1), valid := false } := rfl
@[simp] theorem resetInput_slot58 (s : State) : (resetInput s).slot58 = { tab := Config.slot58PowerOn (s.epoch + 1), valid := false } := rfl
@[simp] theorem resetInput_delay (s : State) : (resetInput s).delay = 0 := rfl
@[simp] theorem resetInput_fresh (s : State) : (resetInput s).fresh = s.fresh := rfl
@[simp] theorem resetInput_epoch (s : State) : (resetInput s).epoch = s.epoch + 1 := rfl
@[simp] theorem resetInput_port (s : State) : (resetInput s).port = s.port := rfl
@[simp] theorem resetInput_replies (s : State) : (resetInput s).replies = s.replies := rfl

/-! ### One served access (R50) -/

@[simp] theorem serveAccess_phase (s : State) (op : HostOp) : (serveAccess s op).phase = (accessEffect s op).phase := rfl
@[simp] theorem serveAccess_cmd (s : State) (op : HostOp) : (serveAccess s op).cmd = (accessEffect s op).cmd := rfl
@[simp] theorem serveAccess_err (s : State) (op : HostOp) : (serveAccess s op).err = (accessEffect s op).err := rfl
@[simp] theorem serveAccess_inLen (s : State) (op : HostOp) : (serveAccess s op).inLen = (accessEffect s op).inLen := rfl
@[simp] theorem serveAccess_outLen (s : State) (op : HostOp) : (serveAccess s op).outLen = (accessEffect s op).outLen := rfl
@[simp] theorem serveAccess_inBuf (s : State) (op : HostOp) : (serveAccess s op).inBuf = (accessEffect s op).inBuf := rfl
@[simp] theorem serveAccess_outBuf (s : State) (op : HostOp) : (serveAccess s op).outBuf = (accessEffect s op).outBuf := rfl
@[simp] theorem serveAccess_slot32 (s : State) (op : HostOp) : (serveAccess s op).slot32 = (accessEffect s op).slot32 := rfl
@[simp] theorem serveAccess_slot58 (s : State) (op : HostOp) : (serveAccess s op).slot58 = (accessEffect s op).slot58 := rfl
@[simp] theorem serveAccess_delay (s : State) (op : HostOp) : (serveAccess s op).delay = (accessEffect s op).delay := rfl
@[simp] theorem serveAccess_fresh (s : State) (op : HostOp) : (serveAccess s op).fresh = s.fresh + 1 := rfl
@[simp] theorem serveAccess_epoch (s : State) (op : HostOp) : (serveAccess s op).epoch = (accessEffect s op).epoch := rfl
@[simp] theorem serveAccess_port (s : State) (op : HostOp) : (serveAccess s op).port = (accessEffect s op).port := rfl
@[simp] theorem serveAccess_replies (s : State) (op : HostOp) : (serveAccess s op).replies = (accessReply s op).toList ++ s.replies := rfl

/-! ### A command placed in flight -/

@[simp] theorem State.withFetchWord_phase (s : State) (nbits w : Nat) : (s.withFetchWord nbits w).phase = .busy := rfl
@[simp] theorem State.withFetchWord_cmd (s : State) (nbits w : Nat) : (s.withFetchWord nbits w).cmd = tableWord nbits w := rfl
@[simp] theorem State.withFetchWord_err (s : State) (nbits w : Nat) : (s.withFetchWord nbits w).err = s.err := rfl
@[simp] theorem State.withFetchWord_inLen (s : State) (nbits w : Nat) : (s.withFetchWord nbits w).inLen = s.inLen := rfl
@[simp] theorem State.withFetchWord_outLen (s : State) (nbits w : Nat) : (s.withFetchWord nbits w).outLen = s.outLen := rfl
@[simp] theorem State.withFetchWord_inBuf (s : State) (nbits w : Nat) : (s.withFetchWord nbits w).inBuf = s.inBuf := rfl
@[simp] theorem State.withFetchWord_outBuf (s : State) (nbits w : Nat) : (s.withFetchWord nbits w).outBuf = s.outBuf := rfl
@[simp] theorem State.withFetchWord_slot32 (s : State) (nbits w : Nat) : (s.withFetchWord nbits w).slot32 = s.slot32 := rfl
@[simp] theorem State.withFetchWord_slot58 (s : State) (nbits w : Nat) : (s.withFetchWord nbits w).slot58 = s.slot58 := rfl
@[simp] theorem State.withFetchWord_delay (s : State) (nbits w : Nat) : (s.withFetchWord nbits w).delay = 0 := rfl
@[simp] theorem State.withFetchWord_fresh (s : State) (nbits w : Nat) : (s.withFetchWord nbits w).fresh = s.fresh := rfl
@[simp] theorem State.withFetchWord_epoch (s : State) (nbits w : Nat) : (s.withFetchWord nbits w).epoch = s.epoch := rfl
@[simp] theorem State.withFetchWord_port (s : State) (nbits w : Nat) : (s.withFetchWord nbits w).port = s.port := rfl
@[simp] theorem State.withFetchWord_replies (s : State) (nbits w : Nat) : (s.withFetchWord nbits w).replies = s.replies := rfl

end Sys2Proof.Machine
end

