-- ==== Sys2Proof/Laws/Commands.lean ====
section
/-! SUPPORT. What a command can do, said once: every command answers a next state, which is one of the four ends of
spec/10_state.md R27, and how a step goes on around it. -/

namespace Sys2Proof.Machine

@[simp] theorem State.finish_ok (out : List Byte) (s : State) : s.finish (.ok out) = s.withOutput out := rfl
@[simp] theorem State.finish_error (e : ErrKind) (s : State) : s.finish (.error e) = s.raise e := rfl
@[simp] theorem State.finishLoad32_ok (tab : Vector Byte 32) (s : State) :
    s.finishLoad32 (.ok tab) = s.withSlot32 tab := rfl
@[simp] theorem State.finishLoad32_error (e : ErrKind) (s : State) : s.finishLoad32 (.error e) = s.raise e := rfl
@[simp] theorem State.finishLoad58_ok (tab : Vector Byte 58) (s : State) :
    s.finishLoad58 (.ok tab) = s.withSlot58 tab := rfl
@[simp] theorem State.finishLoad58_error (e : ErrKind) (s : State) : s.finishLoad58 (.error e) = s.raise e := rfl

/-- No error kind has code 0, so ERR = 0 means success (R201). -/
@[simp] theorem ErrKind.code_ne_zero (e : ErrKind) : e.code ≠ 0#3 := by cases e <;> decide

theorem ErrKind.code_le (e : ErrKind) : e.code.toNat ≤ 5 := by cases e <;> decide

theorem ErrKind.code_inj {e f : ErrKind} (h : e.code = f.code) : e = f := by
  cases e <;> cases f <;> first | rfl | (revert h; decide)

/-- The result of a codec command: what the command's pseudocode computes from its operands, before it is left in OUT
and ERR. None for the two ALOAD commands. -/
def codecResult (i : Instr) (s : State) : Option (Except ErrKind (List Byte)) :=
  match i with
  | .b16enc => some (b16enc Config.CAP (input s))
  | .b16dec => some (b16dec (input s))
  | .b32enc a pad => some ((alpha32 a s).bind fun A => b32enc Config.CAP A pad (input s))
  | .b32dec a => some ((alpha32 a s).bind fun A => b32dec A (input s))
  | .b58enc a => some ((alpha58 a s).bind fun A => b58enc Config.CAP A (input s))
  | .b58dec a => some ((alpha58 a s).bind fun A => b58dec A (input s))
  | .b58cenc a => some ((alpha58 a s).bind fun A => b58cenc Config.H Config.CAP A (input s))
  | .b58cdec a => some ((alpha58 a s).bind fun A => b58cdec Config.H A (input s))
  | .aload32 => none
  | .aload58 => none

/-- Every command is one of these: a codec command that ends with its result, or a load that ends with a checked table
or an error. -/
theorem exec_cases (i : Instr) (s : State) :
    (∃ r, codecResult i s = some r ∧ exec i s = .next (s.finish r))
      ∨ (i = .aload32 ∧ exec i s = .next (s.finishLoad32 (aload32 (input s))))
      ∨ (i = .aload58 ∧ exec i s = .next (s.finishLoad58 (aload58 (input s)))) := by
  cases i with
  | aload32 => exact .inr (.inl ⟨rfl, rfl⟩)
  | aload58 => exact .inr (.inr ⟨rfl, rfl⟩)
  | _ => exact .inl ⟨_, rfl, rfl⟩

/-- The four ends of a command (R27): an output that its result names, an error, or a table loaded into one slot. -/
theorem exec_ends {i : Instr} {s t : State} (h : exec i s = .next t) :
    (∃ out, codecResult i s = some (.ok out) ∧ t = s.withOutput out)
      ∨ (∃ e, t = s.raise e)
      ∨ (∃ tab, i = .aload32 ∧ aload32 (input s) = .ok tab ∧ t = s.withSlot32 tab)
      ∨ (∃ tab, i = .aload58 ∧ aload58 (input s) = .ok tab ∧ t = s.withSlot58 tab) := by
  rcases exec_cases i s with ⟨r, hr, he⟩ | ⟨rfl, he⟩ | ⟨rfl, he⟩ <;> rw [he] at h <;> cases h
  · cases r with
    | ok out => exact .inl ⟨out, hr, rfl⟩
    | error e => exact .inr (.inl ⟨e, rfl⟩)
  · cases hr : aload32 (input s) with
    | ok tab => exact .inr (.inr (.inl ⟨tab, rfl, rfl, rfl⟩))
    | error e => exact .inr (.inl ⟨e, rfl⟩)
  · cases hr : aload58 (input s) with
    | ok tab => exact .inr (.inr (.inr ⟨tab, rfl, rfl, rfl⟩))
    | error e => exact .inr (.inl ⟨e, rfl⟩)

/-! What a checked table is (R108, R109). -/

@[simp] theorem noDuplicates_iff (s : List Byte) : noDuplicates s = true ↔ s.Nodup := by
  induction s with
  | nil => simp [noDuplicates]
  | cons c cs ih => simp [noDuplicates, ih]

theorem aload32_eq_ok {inp : List Byte} {tab : Vector Byte 32} :
    aload32 inp = .ok tab ↔ tab.toList = inp ∧ inp.Nodup ∧ padSymbol ∉ inp := by
  unfold aload32
  split
  · rename_i h
    split
    · rename_i hc
      simp only [Bool.and_eq_true, noDuplicates_iff, Bool.not_eq_true', List.contains_eq_mem,
        decide_eq_false_iff_not] at hc
      constructor
      · rintro ⟨⟩
        exact ⟨by simp [Vector.toList], hc⟩
      · rintro ⟨rfl, -⟩
        simp [Vector.toList]
    · rename_i hc
      simp only [Bool.and_eq_true, noDuplicates_iff, Bool.not_eq_true', List.contains_eq_mem,
        decide_eq_false_iff_not] at hc
      exact iff_of_false (fun h => nomatch h) (fun h => hc h.2)
  · rename_i h
    exact iff_of_false (fun h => nomatch h) (fun h' => h (by rw [← h'.1]; simp))

theorem aload58_eq_ok {inp : List Byte} {tab : Vector Byte 58} :
    aload58 inp = .ok tab ↔ tab.toList = inp ∧ inp.Nodup := by
  unfold aload58
  split
  · rename_i h
    split
    · rename_i hc
      rw [noDuplicates_iff] at hc
      constructor
      · rintro ⟨⟩
        exact ⟨by simp [Vector.toList], hc⟩
      · rintro ⟨rfl, -⟩
        simp [Vector.toList]
    · rename_i hc
      rw [noDuplicates_iff] at hc
      exact iff_of_false (fun h => nomatch h) (fun h => hc h.2)
  · rename_i h
    exact iff_of_false (fun h => nomatch h) (fun h' => h (by rw [← h'.1]; simp))

/-- The only error of an ALOAD is CONFIG (R108, R109). -/
theorem aload32_error {inp : List Byte} {e : ErrKind} (h : aload32 inp = .error e) : e = .config := by
  unfold aload32 at h
  split at h
  · split at h <;> cases h; rfl
  · cases h; rfl

theorem aload58_error {inp : List Byte} {e : ErrKind} (h : aload58 inp = .error e) : e = .config := by
  unfold aload58 at h
  split at h
  · split at h <;> cases h; rfl
  · cases h; rfl

/-! How a step goes on. -/

theorem step_idle {s : State} (h : s.phase = .idle) : step s = .next (serve s) := by simp [step, h]

theorem step_busy {s : State} (h : s.phase = .busy) (hd : s.delay ≠ 0) : step s = .next (serve (passTime s)) := by
  simp [step, h, hd]

theorem step_engine {s : State} (h : s.phase = .busy) (hd : s.delay = 0) : step s = engineStep s := by
  simp [step, h, hd]

theorem engineStep_ok {s : State} {i : Instr} (h : decode s.cmd = .ok i) : engineStep s = exec i s := by
  simp [engineStep, h]

theorem engineStep_error {s : State} {r : Reject} (h : decode s.cmd = .error r) :
    engineStep s = .next (s.raise .illegal) := by
  simp [engineStep, h]

/-- The engine step ends as a command does, or with ILLEGAL. -/
theorem engineStep_cases {s t : State} (h : engineStep s = .next t) :
    (∃ i, decode s.cmd = .ok i ∧ exec i s = .next t) ∨ t = s.raise .illegal := by
  cases hd : decode s.cmd with
  | ok i => exact .inl ⟨i, rfl, by rw [← h, engineStep_ok hd]⟩
  | error r => rw [engineStep_error hd] at h; cases h; exact .inr rfl

/-- What a step can do: serve the host, or take the engine step of a command that is due. -/
theorem step_cases {s t : State} (h : step s = .next t) :
    (s.phase = .idle ∧ t = serve s)
      ∨ (s.phase = .busy ∧ s.delay ≠ 0 ∧ t = serve (passTime s))
      ∨ (s.phase = .busy ∧ s.delay = 0 ∧ engineStep s = .next t) := by
  cases hp : s.phase with
  | idle => rw [step_idle hp] at h; cases h; exact .inl ⟨rfl, rfl⟩
  | busy =>
    by_cases hd : s.delay = 0
    · exact .inr (.inr ⟨rfl, hd, by rw [← h, step_engine hp hd]⟩)
    · rw [step_busy hp hd] at h; cases h; exact .inr (.inl ⟨rfl, hd, rfl⟩)

@[simp] theorem serve_nil {s : State} (h : s.port = []) : serve s = s := by simp [serve, h]

theorem serve_cons {s : State} {l : HostLine} {rest : List HostLine} (h : s.port = l :: rest) :
    serve s = serveLine { s with port := rest } l := by simp [serve, h]

end Sys2Proof.Machine
end

