-- ==== Sys2Proof/Laws/Decode.lean ====
section
/-! SUPPORT. Small laws of the command word: what the fields of a built word are, and the word of a table row. -/

namespace Sys2Proof

/-- The word whose bits are those of `w` is `w`. -/
@[simp] theorem tableWord_toNat (w : Word) : tableWord 32 w.toNat = w := by
  apply BitVec.eq_of_toNat_eq
  simp only [tableWord, BitVec.toNat_ofNat, Nat.mod_mod]
  exact Nat.mod_eq_of_lt w.isLt

@[simp] theorem ASel.ofField_field (a : ASel) : ASel.ofField a.field = some a := by cases a <;> rfl

/-- A name that stands for an ASEL value is that value's name (R83). -/
theorem ASel.field_of_ofField {x : BitVec 2} {a : ASel} (h : ASel.ofField x = some a) : a.field = x := by
  unfold ASel.ofField at h
  split_ifs at h <;> cases h <;> subst_vars <;> rfl

/-- A word that decodes has zeros in RSVH and RSV0, and its OP, ASEL and PAD decide the command (R91). -/
theorem decode_eq_ok {w : Word} {i : Instr} (h : decode w = .ok i) :
    fieldRsvh w = 0 ∧ fieldRsv0 w = false ∧ decodeOp (fieldOp w).toNat (fieldAsel w) (fieldPad w) = .ok i := by
  unfold decode at h
  split_ifs at h with h1 h2
  exact ⟨not_not.1 h1, by simpa using h2, h⟩

end Sys2Proof
end

