-- ==== Sys2Proof/Laws/Lookup.lean ====
section
/-! SUPPORT. What looking a whole sequence up gives: the indices of its codes, one for each, or nothing. -/

namespace Sys2Proof.Machine

@[simp] theorem lookupAll_nil (f : Byte → Option Nat) : lookupAll f [] = some [] := rfl

theorem lookupAll_cons (f : Byte → Option Nat) (c : Byte) (cs : List Byte) :
    lookupAll f (c :: cs) = (f c).bind fun k => (lookupAll f cs).map (k :: ·) := by
  simp only [lookupAll]
  cases f c <;> rfl

/-- The lookup of a sequence succeeds with the indices of its codes, in order. -/
theorem lookupAll_eq_some {f : Byte → Option Nat} {s : List Byte} {g : List Nat} :
    lookupAll f s = some g ↔ List.Forall₂ (fun c k => f c = some k) s g := by
  induction s generalizing g with
  | nil => cases g <;> simp
  | cons c cs ih =>
    rw [lookupAll_cons]
    cases hc : f c with
    | none => cases g <;> simp [hc]
    | some k =>
      cases g with
      | nil => simp
      | cons l ls =>
        simp only [Option.bind_some, Option.map_eq_some_iff, ih, List.forall₂_cons, hc, Option.some.injEq]
        constructor
        · rintro ⟨_, h, heq⟩; cases heq; exact ⟨rfl, h⟩
        · rintro ⟨rfl, h⟩; exact ⟨_, h, rfl⟩

/-- The lookup of a sequence fails exactly when one of its codes has no index. -/
theorem lookupAll_eq_none {f : Byte → Option Nat} {s : List Byte} :
    lookupAll f s = none ↔ ∃ c ∈ s, f c = none := by
  induction s with
  | nil => simp
  | cons c cs ih => rw [lookupAll_cons]; cases hc : f c <;> simp [hc, ih]

theorem lookupAll_length {f : Byte → Option Nat} {s : List Byte} {g : List Nat} (h : lookupAll f s = some g) :
    g.length = s.length := (lookupAll_eq_some.1 h).length_eq.symm

/-- A bound on every index is a bound on every index looked up. -/
theorem lookupAll_bound {f : Byte → Option Nat} {s : List Byte} {g : List Nat} {n : Nat}
    (h : lookupAll f s = some g) (hf : ∀ c k, f c = some k → k < n) : ∀ k ∈ g, k < n := by
  intro k hk
  obtain ⟨c, -, hc⟩ : ∃ c ∈ s, f c = some k := by
    have h2 := lookupAll_eq_some.1 h
    clear h
    induction h2 with
    | nil => cases hk
    | cons hab _ ih =>
      rcases List.mem_cons.1 hk with rfl | hk
      · exact ⟨_, List.mem_cons_self .., hab⟩
      · obtain ⟨c, hc, hf'⟩ := ih hk
        exact ⟨c, List.mem_cons_of_mem _ hc, hf'⟩
  exact hf c k hc

/-- Looking up the symbols of a list of indices gives the indices back, where lookup inverts symbol on each. -/
theorem lookupAll_map {f : Byte → Option Nat} {sy : Nat → Byte} {g : List Nat}
    (h : ∀ k ∈ g, f (sy k) = some k) : lookupAll f (g.map sy) = some g := by
  induction g with
  | nil => rfl
  | cons k g ih =>
    rw [List.map_cons, lookupAll_cons, h k (List.mem_cons_self ..),
      ih fun x hx => h x (List.mem_cons_of_mem _ hx)]
    rfl

/-- `hexval` gives values below 16 (R107). -/
theorem hexval_lt {c : Byte} {k : Nat} (h : hexval c = some k) : k < 16 := by
  unfold hexval at h
  split_ifs at h <;> cases h <;> omega

/-- A code has no index exactly when it does not occur (R106). -/
theorem idx_eq_none {A : List Byte} {c : Byte} : idx A c = none ↔ c ∉ A := by simp [idx]

end Sys2Proof.Machine
end

