-- ==== Sys2Proof/Laws/Operands.lean ====
section
/-! SUPPORT. The bounds the spec gives the parameters (spec/00_scope.md R8), and what the data operand of a command is
when IN holds a given sequence (spec/30_encoding.md R90). -/

namespace Sys2Proof.Machine

/-- `58 <= CAP` (R8). -/
theorem le_CAP : 58 ≤ Config.CAP := by unfold Config.CAP; omega

/-- `CAP < 2^32` (R8). -/
theorem CAP_lt : Config.CAP < 2 ^ 32 := by unfold Config.CAP; omega

/-- Every digest has `HLEN` bytes (R171). -/
@[simp] theorem length_H (m : List Byte) : (Config.H m).length = Config.HLEN := by simp [Config.H]

/-- `HLEN >= 4` (R8). -/
theorem four_le_HLEN : 4 ≤ Config.HLEN := by unfold Config.HLEN; omega

/-- A checksum has 4 bytes (R170). -/
@[simp] theorem length_ck (p : List Byte) : (ck Config.H p).length = 4 := by
  have := four_le_HLEN
  simp [ck]; omega

/-- The data operand has IN_LEN units. -/
@[simp] theorem length_input (s : State) : (input s).length = s.inLen.toNat := by simp [input]

/-- The data operand is `us` when IN_LEN is its length and IN holds its units. -/
theorem input_eq {s : State} {us : List Byte} (hlen : s.inLen.toNat = us.length)
    (h : ∀ i < us.length, inUnit s i = us[i]?.getD 0) : input s = us := by
  apply List.ext_getElem (by simp [hlen])
  intro i h1 h2
  simp only [input, List.getElem_map, List.getElem_range, h i h2]
  simp [h2]

/-- Two states with the same IN_LEN, IN and reset count have the same data operand. -/
theorem input_congr {s u : State} (h1 : s.inLen = u.inLen) (h2 : s.inBuf = u.inBuf) (h3 : s.epoch = u.epoch) :
    input s = input u := by
  unfold input
  rw [h1]
  congr 1
  funext i
  simp only [inUnit, h2, h3]

end Sys2Proof.Machine
end

