-- ==== Sys2Proof/Laws/PerInstr.lean ====
section
/-! SUPPORT. Statements for all instructions, one lemma per constructor: the fields of an instruction's word are the
ones the spec names for it (spec/30_encoding.md R81 to R84). -/

namespace Sys2Proof.Laws.EncodeFields

/-- RSVH and RSV0 of the word are 0 and OP, ASEL and PAD are the instruction's. -/
def Statement (i : Instr) : Prop :=
  fieldRsvh (encode i) = 0 ∧ fieldRsv0 (encode i) = false ∧ fieldOp (encode i) = i.opcode
    ∧ fieldAsel (encode i) = i.asel ∧ fieldPad (encode i) = i.pad

theorem b16enc : Statement .b16enc := by unfold Statement; decide
theorem b16dec : Statement .b16dec := by unfold Statement; decide
theorem b32enc (asel : ASel) (pad : Bool) : Statement (.b32enc asel pad) := by
  unfold Statement; cases asel <;> cases pad <;> decide
theorem b32dec (asel : ASel) : Statement (.b32dec asel) := by unfold Statement; cases asel <;> decide
theorem b58enc (asel : ASel) : Statement (.b58enc asel) := by unfold Statement; cases asel <;> decide
theorem b58dec (asel : ASel) : Statement (.b58dec asel) := by unfold Statement; cases asel <;> decide
theorem b58cenc (asel : ASel) : Statement (.b58cenc asel) := by unfold Statement; cases asel <;> decide
theorem b58cdec (asel : ASel) : Statement (.b58cdec asel) := by unfold Statement; cases asel <;> decide
theorem aload32 : Statement .aload32 := by unfold Statement; decide
theorem aload58 : Statement .aload58 := by unfold Statement; decide

end Sys2Proof.Laws.EncodeFields
end

