-- ==== Sys2Proof/Laws/Radix.lean ====
section
/-! SUPPORT. What repeated division gives (spec/43_base58.md R154): digits below the base, no leading zero digit, the
value back, and as many digits as the value needs; and the value of a byte sequence, one byte at a time (R150). -/

namespace Sys2Proof.Machine

/-- Every digit is below the base. -/
theorem digitsAux_lt {b : Nat} (hb : 0 < b) (fuel v : Nat) : ∀ x ∈ digitsAux b fuel v, x < b := by
  induction fuel generalizing v with
  | zero => simp [digitsAux]
  | succ fuel ih =>
    intro x hx
    simp only [digitsAux] at hx
    split at hx
    · cases hx
    · rcases List.mem_append.1 hx with h | h
      · exact ih _ x h
      · rw [List.mem_singleton.1 h]; exact Nat.mod_lt _ hb

/-- With enough divisions the digits have the value divided. -/
theorem digitsAux_value {b : Nat} (hb : 2 ≤ b) {fuel v : Nat} (h : v ≤ fuel) :
    (digitsAux b fuel v).foldl (fun x d => x * b + d) 0 = v := by
  induction fuel generalizing v with
  | zero => obtain rfl : v = 0 := by omega
            rfl
  | succ fuel ih =>
    simp only [digitsAux]
    split
    · subst_vars; rfl
    · have : v / b < v := Nat.div_lt_self (by omega) hb
      rw [List.foldl_append, ih (by omega)]
      simp only [List.foldl_cons, List.foldl_nil]
      rw [Nat.mul_comm, Nat.div_add_mod]

/-- With enough divisions there are at most `n` digits exactly when the value is below `b ^ n`. -/
theorem digitsAux_length {b : Nat} (hb : 2 ≤ b) {fuel v : Nat} (h : v ≤ fuel) (n : Nat) :
    (digitsAux b fuel v).length ≤ n ↔ v < b ^ n := by
  induction fuel generalizing v n with
  | zero => obtain rfl : v = 0 := by omega
            simp [digitsAux, Nat.pow_pos (show 0 < b by omega)]
  | succ fuel ih =>
    simp only [digitsAux]
    split
    · subst_vars; simp [Nat.pow_pos (show 0 < b by omega)]
    · have : v / b < v := Nat.div_lt_self (by omega) hb
      cases n with
      | zero => simp; omega
      | succ n =>
        rw [List.length_append, List.length_singleton, Nat.add_le_add_iff_right, ih (by omega), pow_succ,
          Nat.div_lt_iff_lt_mul (by omega)]

/-- The first digit is not zero. -/
theorem digitsAux_head {b : Nat} (hb : 2 ≤ b) {fuel v : Nat} (h : v ≤ fuel) : (digitsAux b fuel v).head? ≠ some 0 := by
  induction fuel generalizing v with
  | zero => simp [digitsAux]
  | succ fuel ih =>
    simp only [digitsAux]
    split
    · simp
    · have : v / b < v := Nat.div_lt_self (by omega) hb
      rw [List.head?_append]
      cases hd : (digitsAux b fuel (v / b)).head? with
      | some x => have := ih (v := v / b) (by omega); rw [hd] at this; simpa using this
      | none =>
        have h0 : v / b < b ^ 0 :=
          (digitsAux_length hb (by omega : v / b ≤ fuel) 0).1 (by rw [List.head?_eq_none_iff.1 hd]; simp)
        have hmod := Nat.div_add_mod v b
        have : v / b = 0 := by simpa using h0
        rw [this] at hmod
        simp only [List.head?_cons, Option.none_or, ne_eq, Option.some.injEq]
        omega

/-- One more byte at the end makes the value 256 times as large and adds the byte (R150). -/
theorem natOf_append_singleton (b : List Byte) (x : Byte) : natOf (b ++ [x]) = natOf b * 256 + x.toNat := by
  simp [natOf]

/-- The value of `n` bytes is below `256 ^ n`. -/
theorem natOf_lt (b : List Byte) : natOf b < 256 ^ b.length := by
  induction b using List.reverseRecOn with
  | nil => simp [natOf]
  | append_singleton b x ih =>
    rw [natOf_append_singleton, List.length_append, List.length_singleton, pow_succ]
    have := x.isLt
    omega

/-- Bytes at the end never make the value smaller. -/
theorem natOf_le_append (b c : List Byte) : natOf b ≤ natOf (b ++ c) := by
  induction c using List.reverseRecOn with
  | nil => simp
  | append_singleton c x ih => rw [← List.append_assoc, natOf_append_singleton]; omega

end Sys2Proof.Machine
end

