-- ==== Sys2Proof/Laws/Runs.lean ====
section
/-! SUPPORT. Runs of many steps: one step at a time, the host's own run of the core, and the end of a host
program's run. -/

namespace Sys2Proof.Machine

@[simp] theorem stepN_zero (s : State) : stepN 0 s = .next s := rfl

/-- A run whose first step answers a next state goes on from there. -/
theorem stepN_succ {s t : State} (h : step s = .next t) (k : Nat) : stepN (k + 1) s = stepN k t := by
  simp [stepN, h]

theorem run_succ_next (M : Host.Core) {s t : M.State} (h : M.step s = .next t) (k : Nat) :
    M.run (k + 1) s = M.run k t := by
  simp [Host.Core.run, h]

theorem run_succ_refused (M : Host.Core) {s : M.State} {r : M.Refusal} (h : M.step s = .refused r) (k : Nat) :
    M.run (k + 1) s = .refused r := by
  simp [Host.Core.run, h]

/-- `stepN` is the host's run of the core. -/
theorem stepN_eq_run (k : Nat) (s : State) : Host.Core.run Sys2Proof.core k s = stepN k s := by
  induction k generalizing s with
  | zero => rfl
  | succ k ih =>
    cases h : step s with
    | next t => exact (run_succ_next Sys2Proof.core h k).trans ((ih t).trans (stepN_succ h k).symm)
    | fault f => exact nomatch f
    | refused r => exact (run_succ_refused Sys2Proof.core h k).trans (by simp only [stepN, h]; rfl)

/-! The end of a run (R246). -/

@[simp] theorem State.runEnded_iff (s : State) : s.runEnded = true ↔ s.port = [] := List.isEmpty_iff

/-- With no line left the run ends where it is. -/
theorem runToEnd_of_ended {s : State} (h : s.port = []) (fuel : Nat) : runToEnd fuel s = some s := by
  cases fuel <;> simp [runToEnd, h]

/-- With a line left the run goes on from the next state. -/
theorem runToEnd_succ {s t : State} (h : s.port ≠ []) (ht : step s = .next t) (fuel : Nat) :
    runToEnd (fuel + 1) s = runToEnd fuel t := by
  simp [runToEnd, h, ht]

/-- A run with no line left ends where it is, and nowhere else. -/
theorem State.runEndsAt_of_ended {s t : State} (h : s.port = []) : s.RunEndsAt t ↔ t = s := by
  simp [State.RunEndsAt, runToEnd_of_ended h, eq_comm]

/-- A run with a line left ends where the run from the next state ends. -/
theorem State.runEndsAt_step {s u t : State} (h : s.port ≠ []) (hu : step s = .next u) :
    s.RunEndsAt t ↔ u.RunEndsAt t := by
  constructor
  · rintro ⟨fuel, hf⟩
    cases fuel with
    | zero => simp [runToEnd, h] at hf
    | succ fuel => exact ⟨fuel, by rwa [runToEnd_succ h hu] at hf⟩
  · rintro ⟨fuel, hf⟩
    exact ⟨fuel + 1, by rwa [runToEnd_succ h hu]⟩

/-- A run has one end. -/
theorem State.runEndsAt_unique {s t u : State} (ht : s.RunEndsAt t) (hu : s.RunEndsAt u) : t = u := by
  obtain ⟨k, hk⟩ := ht
  obtain ⟨l, hl⟩ := hu
  induction k generalizing s l with
  | zero =>
    have h : s.port = [] := by
      by_contra h
      simp [runToEnd, h] at hk
    rw [runToEnd_of_ended h] at hk hl
    exact Option.some.inj (hk.symm.trans hl)
  | succ k ih =>
    by_cases h : s.port = []
    · rw [runToEnd_of_ended h] at hk hl
      exact Option.some.inj (hk.symm.trans hl)
    · cases l with
      | zero => simp [runToEnd, h] at hl
      | succ l =>
        cases hs : step s with
        | next v => exact ih (by rwa [runToEnd_succ h hs] at hk) l (by rwa [runToEnd_succ h hs] at hl)
        | fault f => exact nomatch f
        | refused r => simp [runToEnd, h, hs] at hk

end Sys2Proof.Machine
end

