-- ==== Sys2Proof/Tests/Slice0.lean ====
section
/-! SUPPORT. Tests of single steps against the vectors of spec/95_test_vectors.md (named in each docstring), and for every
statement with hypotheses a state and operands that meet them. -/

namespace Sys2Proof.Machine.Tests

open Sys2Proof Sys2Proof.Machine

/-! ## The states the tests start from -/

/-- The state after reset and `LDIN us`. -/
def loaded (us : List Byte) : State :=
  { State.reset with inLen := BitVec.ofNat 32 us.length, inBuf := Memory.ofUnits us }

/-- The custom alphabet `CUS32` of 95_test_vectors.md section 1. -/
def cus32 : List Byte :=
  [0x30, 0x31, 0x32, 0x33, 0x34, 0x35, 0x36, 0x37] ++
  [0x38, 0x39, 0x41, 0x42, 0x43, 0x44, 0x45, 0x46] ++
  [0x47, 0x48, 0x4A, 0x4B, 0x4D, 0x4E, 0x50, 0x51] ++
  [0x52, 0x53, 0x54, 0x56, 0x57, 0x58, 0x59, 0x5A]

/-- The custom alphabet `CUS58` of 95_test_vectors.md section 1. -/
def cus58 : List Byte :=
  [0x72, 0x70, 0x73, 0x68, 0x6E, 0x61, 0x66, 0x33] ++
  [0x39, 0x77, 0x42, 0x55, 0x44, 0x4E, 0x45, 0x47] ++
  [0x48, 0x4A, 0x4B, 0x4C, 0x4D, 0x34, 0x50, 0x51] ++
  [0x52, 0x53, 0x54, 0x37, 0x56, 0x57, 0x58, 0x59] ++
  [0x5A, 0x32, 0x62, 0x63, 0x64, 0x65, 0x43, 0x67] ++
  [0x36, 0x35, 0x6A, 0x6B, 0x6D, 0x38, 0x6F, 0x46] ++
  [0x71, 0x69, 0x31, 0x74, 0x75, 0x76, 0x41, 0x78] ++
  [0x79, 0x7A]

/-- The state after reset, `ALOAD32` of `CUS32`, `ALOAD58` of `CUS58` and `LDIN us`. -/
def withSlots (us : List Byte) : State :=
  { loaded us with slot32 := { tab := ⟨cus32.toArray, rfl⟩, valid := true }, slot58 := { tab := ⟨cus58.toArray, rfl⟩, valid := true } }

/-- ERR and the units of OUT after a step that answered a next state. -/
def ran : Host.Outcome State Fault Refusal → Option (Nat × List Byte)
  | .next t => some (t.err.toNat, t.outBuf.map Prod.snd)
  | .fault _ => none
  | .refused _ => none

/-- STATUS after a step that answered a next state. -/
def statusAfter : Host.Outcome State Fault Refusal → Option Word
  | .next t => some (statusReg t)
  | .fault _ => none
  | .refused _ => none

/-- The step that runs word `w` on a state. -/
def runWord (s : State) (w : Nat) : Host.Outcome State Fault Refusal := step (s.withFetchWord 32 w)

/-- The hash function `Htoy` of 95_test_vectors.md section 1. -/
def htoy (b : List Byte) : List Byte :=
  [b.foldl (· + ·) 0, b.foldl (· ^^^ ·) 0, BitVec.ofNat 8 b.length, 0xA5]

/-! ## Well-formed and ill-formed terms (30_encoding.md R83) -/

theorem test_wf_refuses_b58enc_hex : (Instr.b58enc .hex).wf = false := by decide
theorem test_wf_refuses_b58dec_hex : (Instr.b58dec .hex).wf = false := by decide
theorem test_wf_refuses_b58cenc_hex : (Instr.b58cenc .hex).wf = false := by decide
theorem test_wf_refuses_b58cdec_hex : (Instr.b58cdec .hex).wf = false := by decide
theorem test_wf_accepts_b58 : (Instr.b58enc .cus).wf = true ∧ (Instr.b58dec .std).wf = true := by decide

/-! ## Decoding: every constructor, its word written bit by bit as RSVH, OP, ASEL, PAD, RSV0 (R81, R82) -/

theorem test_decode_base16 :
    decode 0b00000000000000000000000000010000#32 = .ok .b16enc
      ∧ decode 0b00000000000000000000000000100000#32 = .ok .b16dec := by decide

theorem test_decode_base32 :
    decode 0b00000000000000000000000000110110#32 = .ok (.b32enc .hex true)
      ∧ decode 0b00000000000000000000000000111000#32 = .ok (.b32enc .cus false)
      ∧ decode 0b00000000000000000000000001000100#32 = .ok (.b32dec .hex) := by decide

theorem test_decode_base58 :
    decode 0b00000000000000000000000001011000#32 = .ok (.b58enc .cus)
      ∧ decode 0b00000000000000000000000001100000#32 = .ok (.b58dec .std) := by decide

theorem test_decode_checksum :
    decode 0b00000000000000000000000001110000#32 = .ok (.b58cenc .std)
      ∧ decode 0b00000000000000000000000010001000#32 = .ok (.b58cdec .cus) := by decide

theorem test_decode_aload :
    decode 0b00000000000000000000000010011000#32 = .ok .aload32
      ∧ decode 0b00000000000000000000000010101000#32 = .ok .aload58 := by decide

/-- VE-1 to VE-13: the sample illegal words. -/
theorem test_decode_illegal :
    decodeTableWord 32 0x00 = none ∧ decodeTableWord 32 0x11 = none ∧ decodeTableWord 32 0x12 = none
      ∧ decodeTableWord 32 0x18 = none ∧ decodeTableWord 32 0x3C = none ∧ decodeTableWord 32 0x42 = none
      ∧ decodeTableWord 32 0x54 = none ∧ decodeTableWord 32 0x90 = none ∧ decodeTableWord 32 0xB0 = none
      ∧ decodeTableWord 32 0xF0 = none ∧ decodeTableWord 32 0x110 = none ∧ decodeTableWord 32 0x80000010 = none
      ∧ decodeTableWord 32 0xFFFFFFFF = none := by decide

/-! ## One step of each command -/

/-- The output of a successful result. -/
def result : Except ErrKind (List Byte) → Option (List Byte)
  | .ok out => some out
  | .error _ => none

/-- The error kind of a failed result. -/
def errorOf : Except ErrKind (List Byte) → Option ErrKind
  | .ok _ => none
  | .error e => some e

/-- V16-4. -/
theorem test_b16enc_nibble_order : ran (runWord (loaded [0x0F, 0xF0]) 0x10) =
    some (0, [0x30, 0x66, 0x66, 0x30]) := by decide +kernel

/-- V16-5 (S1). -/
theorem test_b16enc_vector : ran (runWord (loaded ([0x31, 0x32, 0x33, 0x34, 0x35, 0x36, 0x37, 0x38] ++ [0x39, 0x30])) 0x10) =
    some (0, ([0x33, 0x31, 0x33, 0x32, 0x33, 0x33, 0x33, 0x34] ++ [0x33, 0x35, 0x33, 0x36, 0x33, 0x37, 0x33, 0x38] ++ [0x33, 0x39, 0x33, 0x30])) := by decide +kernel

/-- V16-14. -/
theorem test_b16dec_either_case : ran (runWord (loaded [0x44, 0x65, 0x61, 0x64, 0x42, 0x45, 0x45, 0x46]) 0x20) =
    some (0, [0xDE, 0xAD, 0xBE, 0xEF]) := by decide +kernel

/-- V16-19. -/
theorem test_b16dec_foreign_code : ran (runWord (loaded [0x30, 0x67]) 0x20) =
    some (1, []) := by decide +kernel

/-- V32-3, `B32ENC.HEX.P`. -/
theorem test_b32enc_padded : ran (runWord (loaded [0x66, 0x6F]) 0x36) =
    some (0, [0x43, 0x50, 0x4E, 0x47, 0x3D, 0x3D, 0x3D, 0x3D]) := by decide +kernel

/-- The `CUS32` example after V32-15, `B32ENC.CUS`. -/
theorem test_b32enc_custom : ran (runWord (withSlots ([0x31, 0x32, 0x33, 0x34, 0x35, 0x36, 0x37, 0x38] ++ [0x39, 0x30])) 0x38) =
    some (0, ([0x36, 0x34, 0x53, 0x33, 0x36, 0x44, 0x31, 0x4E] ++ [0x36, 0x52, 0x56, 0x4B, 0x47, 0x45, 0x39, 0x47])) := by decide +kernel

/-- V32-29. -/
theorem test_b32dec_padded : ran (runWord (loaded [0x4D, 0x5A, 0x58, 0x57, 0x36, 0x59, 0x51, 0x3D]) 0x40) =
    some (0, [0x66, 0x6F, 0x6F, 0x62]) := by decide +kernel

/-- V32-51. -/
theorem test_b32dec_inner_padding : ran (runWord (loaded [0x4D, 0x59, 0x3D, 0x41]) 0x40) =
    some (1, []) := by decide +kernel

/-- V58-13 (S4). -/
theorem test_b58enc_leading_zeros : ran (runWord (loaded [0x00, 0x00, 0x01, 0x02]) 0x50) =
    some (0, [0x31, 0x31, 0x35, 0x54]) := by decide +kernel

/-- V58-17. -/
theorem test_b58enc_vector : ran (runWord (loaded ([0x31, 0x32, 0x33, 0x34, 0x35, 0x36, 0x37, 0x38] ++ [0x39, 0x30])) 0x50) =
    some (0, ([0x33, 0x6D, 0x4A, 0x72, 0x37, 0x41, 0x6F, 0x55] ++ [0x43, 0x48, 0x78, 0x4E, 0x71, 0x64])) := by decide +kernel

/-- V58-46. -/
theorem test_b58dec_vector : ran (runWord (loaded ([0x33, 0x6D, 0x4A, 0x72, 0x37, 0x41, 0x6F, 0x55] ++ [0x43, 0x48, 0x78, 0x4E, 0x71, 0x64])) 0x60) =
    some (0, ([0x31, 0x32, 0x33, 0x34, 0x35, 0x36, 0x37, 0x38] ++ [0x39, 0x30])) := by decide +kernel

/-- The `CUS58` example after V58-55, `B58DEC.CUS`. -/
theorem test_b58dec_custom : ran (runWord (withSlots [0x72, 0x72, 0x6E, 0x62]) 0x68) =
    some (0, [0x00, 0x00, 0x01, 0x0A]) := by decide +kernel

/-- V58C-1: the pure command with `H = Htoy`. -/
theorem test_b58cenc_vector : result (b58cenc htoy 58 B58STD [0x00, 0x01, 0x02]) = some [0x31, 0x57, 0x42, 0x6A, 0x34, 0x6D, 0x39, 0x45] := by decide +kernel

/-- R111: the empty slot, word 0x78. -/
theorem test_b58cenc_empty_slot : ran (runWord (loaded [0x00, 0x01, 0x02]) 0x78) =
    some (3, []) := by decide +kernel

/-- V58C-8, V58C-12 and V58C-23: the pure command with `H = Htoy`. -/
theorem test_b58cdec_vectors : result (b58cdec htoy B58STD [0x31, 0x57, 0x42, 0x6A, 0x34, 0x6D, 0x39, 0x45]) = some [0x00, 0x01, 0x02]
      ∧ errorOf (b58cdec htoy B58STD [0x31, 0x57, 0x42, 0x6A, 0x34, 0x6D, 0x39, 0x46]) = some .checksum
      ∧ errorOf (b58cdec htoy B58STD [0x32, 0x55, 0x7A, 0x48, 0x4C]) = some .format := by decide +kernel

/-- VP-5. -/
theorem test_b58cdec_format_first : ran (runWord (loaded [0x30, 0x57, 0x42, 0x6A, 0x34, 0x6D, 0x39, 0x46]) 0x80) =
    some (1, []) := by decide +kernel

/-- VA-1. -/
theorem test_aload32_status : statusAfter (runWord (loaded cus32) 0x98) = some 0x4 := by decide +kernel

/-- VA-7 and VA-2. -/
theorem test_aload32_padding_code : statusAfter (runWord (loaded (0x3D :: cus32.tail)) 0x98) = some 0x2
    ∧ statusAfter (runWord (loaded (cus32.take 31)) 0x98) = some 0x2 := by decide +kernel

/-- VA-11. -/
theorem test_aload58_status : statusAfter (runWord (loaded cus58) 0xA8) = some 0x8 := by decide +kernel

/-- VA-14. -/
theorem test_aload58_duplicate : statusAfter (runWord (loaded (cus58.take 57 ++ [0x72])) 0xA8) = some 0x2 := by decide +kernel

/-- VE-11: an illegal word ends with ERR = 4. -/
theorem test_illegal_word : ran (runWord (withSlots [0x66]) 0x110) = some (4, []) := by decide +kernel

/-- R158 on the array `[0xFF]` (95_test_vectors.md section 5): the digits are 4 and 23. -/
theorem test_digits58_bytes : digits58Bytes [0xFF] = [4, 23] ∧ val58Bytes [4, 23] 2 = [0x00, 0xFF] := by decide

/-- R92: the rejected spellings, and an explicit `.STD`. -/
theorem test_assembler :
    assemble ⟨.B16ENC, some .cus, false⟩ = none ∧ assemble ⟨.B58ENC, some .hex, false⟩ = none
      ∧ assemble ⟨.B32DEC, none, true⟩ = none ∧ assemble ⟨.ALOAD32, some .cus, false⟩ = none
      ∧ assemble ⟨.B32ENC, some .std, true⟩ = some 0x32 := by decide

/-! ## Witnesses: for every statement with hypotheses, states and operands that meet them -/

/-- `loaded us` has the data operand `us`. -/
theorem input_loaded {us : List Byte} (h : us.length < 2 ^ 32) : input (loaded us) = us := by
  apply input_eq
  · exact (BitVec.toNat_ofNat ..).trans (Nat.mod_eq_of_lt h)
  · intro i hi; simp [inUnit, loaded, hi]

/-- `loaded us` meets the invariant when `us` fits. -/
theorem inv_loaded {us : List Byte} (h : us.length ≤ Config.CAP) : (loaded us).Inv := by
  have hl : (BitVec.ofNat 32 us.length).toNat = us.length := by
    rw [BitVec.toNat_ofNat, Nat.mod_eq_of_lt (Nat.lt_of_le_of_lt h CAP_lt)]
  have hw := Memory.map_fst_ofUnits us
  refine ⟨?_, by simp [loaded, State.reset], by simp [loaded, State.reset], fun _ => rfl, ?_, ?_, ?_, Memory.wf_ofUnits us, ?_, rfl⟩
  · show (BitVec.ofNat 32 us.length).toNat ≤ _
    rw [hl]; exact h
  · intro hv; cases hv
  · intro hv; cases hv
  · intro hv; cases hv
  · intro c hc
    have : c.1 ∈ (Memory.ofUnits us).map Prod.fst := List.mem_map_of_mem hc
    rw [hw, List.mem_range] at this
    exact Nat.lt_of_lt_of_le this h

/-- CAP units 0xFF: the input whose every encoding is too long. -/
def allOnes : List Byte := List.replicate Config.CAP 0xFF

theorem length_allOnes : allOnes.length = Config.CAP := by simp [allOnes]

theorem input_allOnes : input (loaded allOnes) = allOnes :=
  input_loaded (by rw [length_allOnes]; exact CAP_lt)

theorem natOf_ones (n : Nat) : natOf (List.replicate n 0xFF) + 1 = 256 ^ n := by
  induction n with
  | zero => rfl
  | succ n ih =>
    rw [List.replicate_succ', natOf_append_singleton, pow_succ, ← ih]
    show natOf _ * 256 + 255 + 1 = _
    ring

/-- The Base-58 string of bytes that begin with CAP bytes 0xFF is longer than CAP. -/
theorem long_string (A c : List Byte) : Config.CAP < (base58String A (allOnes ++ c)).length := by
  have h1 : 58 ^ Config.CAP ≤ natOf (allOnes ++ c) := by
    have h2 := natOf_le_append allOnes c
    have h3 : natOf allOnes + 1 = 256 ^ Config.CAP := natOf_ones _
    have h4 : 58 ^ Config.CAP < 256 ^ Config.CAP := Nat.pow_lt_pow_left (by omega) (by have := le_CAP; omega)
    omega
  have h5 : ¬(digits58 (natOf (allOnes ++ c))).length ≤ Config.CAP := by
    rw [digits58, digitsAux_length (by omega) (le_refl _)]
    omega
  simp only [base58String, List.length_append, List.length_map]
  omega

/-- A string whose Base-58 decoding is the byte 0x01 followed by `c`. -/
def stringOf (c : List Byte) : List Byte := (digits58 (natOf (0x01 :: c))).map (sym B58STD)

theorem idx_sym_B58STD : ∀ k < 58, idx B58STD (sym B58STD k) = some k := by decide +kernel

theorem sym_mem_B58STD : ∀ k < 58, sym B58STD k ∈ B58STD := by decide +kernel

theorem stringOf_decodes (c : List Byte) :
    (∀ x ∈ stringOf c, x ∈ B58STD) ∧ IsBase58Decoding B58STD (stringOf c) (0x01 :: c) := by
  have hlt : ∀ x ∈ digits58 (natOf (0x01 :: c)), x < 58 := digitsAux_lt (by omega) _ _
  have hval : val58 (digits58 (natOf (0x01 :: c))) = natOf (0x01 :: c) := digitsAux_value (by omega) (le_refl _)
  have hhead : (digits58 (natOf (0x01 :: c))).head? ≠ some 0 := digitsAux_head (by omega) (le_refl _)
  unfold stringOf
  generalize digits58 (natOf (0x01 :: c)) = d at *
  refine ⟨?_, 0, 0x01 :: c, d, rfl, ?_, hval.symm, by simp, by omega, ?_⟩
  · intro x hx
    obtain ⟨k, hk, rfl⟩ := List.mem_map.1 hx
    exact sym_mem_B58STD k (hlt k hk)
  · exact lookupAll_eq_some.1 <| lookupAll_map fun k hk => idx_sym_B58STD k (hlt k hk)
  · cases d with
    | nil => simp
    | cons x d =>
      intro h
      have hx := idx_sym_B58STD x (hlt x (by simp))
      simp only [List.map_cons, List.getElem?_cons_zero, Option.some.injEq] at h
      rw [h, idx_sym_B58STD 0 (by omega)] at hx
      exact hhead (by simpa using hx.symm)

/-- The digits of the value of at most 5 bytes are few. -/
theorem few_digits {b : List Byte} (h : b.length ≤ 5) : (digits58 (natOf b)).length ≤ 8 := by
  rw [digits58, digitsAux_length (by omega) (le_refl _)]
  exact (natOf_lt b).trans_le ((Nat.pow_le_pow_right (by omega) h).trans (by norm_num))

theorem length_stringOf {c : List Byte} (h : c.length = 4) : (stringOf c).length < 2 ^ 32 := by
  have := few_digits (b := 0x01 :: c) (by simp [h])
  rw [stringOf, List.length_map]
  omega

/-- The checksummed string of the empty payload fits. -/
theorem short_string {c : List Byte} (h : c.length = 4) : (base58String B58STD c).length ≤ 12 := by
  have hz : lz c ≤ 4 := h ▸ (List.takeWhile_sublist _).length_le
  have hd := few_digits (b := c) (by omega)
  simp only [base58String, List.length_append, List.length_map, List.length_replicate]
  omega

/-- A result known by its output. -/
theorem result_eq {r : Except ErrKind (List Byte)} {out : List Byte} (h : result r = some out) : r = .ok out := by
  cases r with
  | ok o => cases h; rfl
  | error e => cases h

theorem isAlphabet_cus32 : IsAlphabet 32 cus32 ∧ padSymbol ∉ cus32 := ⟨⟨rfl, by decide⟩, by decide⟩
theorem isAlphabet_cus58 : IsAlphabet 58 cus58 := ⟨rfl, by decide⟩

/-- A state with command word `w` in flight, `d` steps before its engine step, and the lines `port` to serve. -/
def inFlight (w : Word) (d : Nat) (port : List HostLine) : State :=
  { loaded [0x66, 0x6F] with cmd := w, phase := .busy, delay := d, port := port }

/-- An idle state with the lines `port` to serve. -/
def idleWith (port : List HostLine) : State := { withSlots [0x66, 0x6F] with port := port }

theorem test_witness_DecodeAndEncodeAgree :
    (Instr.b32enc .cus true).wf = true ∧ decode 0x3A = .ok (.b32enc .cus true) := by decide

theorem test_witness_ExactlyTwentyOneLegalWords :
    ((⟨.ALOAD58, none, false⟩, 0xA8) : Spelling × Word) ∈ spellingTable := by decide

theorem test_witness_AssemblerGivesLegalWords :
    assemble ⟨.B32ENC, none, true⟩ = some 0x32 ∧ assemble ⟨.B16DEC, some .std, false⟩ = some 0x20 := by decide

theorem test_witness_StepRunsTheDecodedCommand :
    (inFlight 0x58 0 []).phase = .busy ∧ (inFlight 0x58 0 []).delay = 0
      ∧ decode (inFlight 0x58 0 []).cmd = .ok (.b58enc .cus) ∧ (Instr.b58enc .cus).wf = true := by decide

theorem test_witness_IllegalWordEndsWithErrFour :
    (inFlight 0x11 0 []).cmd ∉ legalTable.map Prod.fst ∧ (inFlight 0x110 0 []).cmd ∉ legalTable.map Prod.fst
      ∧ (inFlight 0x00 0 []).cmd ∉ legalTable.map Prod.fst := by decide

theorem test_witness_CommandsKeepTheirInputs :
    (loaded [0x66]).Inv ∧ Instr.b16enc ≠ .aload32 ∧ Instr.b16enc ≠ .aload58
      ∧ exec .b16enc (loaded [0x66]) = .next ((loaded [0x66]).withOutput [0x36, 0x36])
      ∧ ((loaded [0x66]).withOutput [0x36, 0x36]).outLen.toNat ≤ 2 :=
  ⟨inv_loaded (by have := le_CAP; simp; omega), by decide, by decide, rfl, by decide⟩

theorem test_witness_FailedCommandHasNoOtherEffect :
    engineStep (inFlight 0x3A 0 []) = .next ((inFlight 0x3A 0 []).raise .config)
      ∧ ((inFlight 0x3A 0 []).raise .config).err ≠ 0
      ∧ engineStep (inFlight 0x3C 0 []) = .next ((inFlight 0x3C 0 []).raise .illegal)
      ∧ ((inFlight 0x3C 0 []).raise .illegal).err ≠ 0 := ⟨rfl, by simp, rfl, by simp⟩

/-- The second state ran and failed another command before, and its empty slots hold other tables. -/
theorem test_witness_ResultDependsOnOperandsOnly :
    let s := loaded [0x30]
    let u := { loaded [0x30] with err := 5, cmd := 0xA8, slot32 := ⟨⟨cus32.toArray, rfl⟩, false⟩ }
    input s = input u ∧ sameAlphabet s.slot32 u.slot32 ∧ sameAlphabet s.slot58 u.slot58
      ∧ exec (.b58dec .std) s = .next (s.raise .format) ∧ exec (.b58dec .std) u = .next (u.raise .format) :=
  ⟨rfl, ⟨rfl, by decide⟩, ⟨rfl, fun _ => rfl⟩, rfl, rfl⟩

theorem test_witness_OnlyListedErrorsAreReported :
    (Instr.b32enc .cus true).wf = true
      ∧ exec (.b32enc .cus true) (loaded []) = .next ((loaded []).raise .config) := ⟨rfl, rfl⟩

theorem test_witness_LookupInvertsSymbol :
    IsAlphabet 58 cus58 ∧ idx cus58 0x7A = some 57 := ⟨isAlphabet_cus58, by decide⟩

theorem test_witness_HexvalReadsEitherCase : idx HEX16 0x66 = some 15 := by decide

theorem test_witness_AselSelectsTheAlphabet :
    (withSlots []).slot32.valid = true ∧ (withSlots []).slot58.valid = true
      ∧ (loaded []).slot32.valid = false ∧ (loaded []).slot58.valid = false := by decide

theorem test_witness_EmptySlotIsConfigError : (loaded []).slot32.valid = false ∧ (loaded []).slot58.valid = false := by
  decide

/-- A table that loads; one symbol too few and one too many; a duplicate at the two ends; the padding code. -/
theorem test_witness_Aload32LoadsACheckedTable :
    (let inp := input (loaded cus32); inp.length = 32 ∧ inp.Nodup ∧ padSymbol ∉ inp)
      ∧ (input (loaded (cus32.take 31))).length = 31 ∧ (input (loaded (cus32 ++ [0x61]))).length = 33
      ∧ (input (loaded (cus32.take 31 ++ [0x30]))).length = 32 ∧ ¬(input (loaded (cus32.take 31 ++ [0x30]))).Nodup
      ∧ padSymbol ∈ input (loaded (0x3D :: cus32.tail)) := by decide +kernel

theorem test_witness_Aload58LoadsACheckedTable :
    (let inp := input (loaded cus58); inp.length = 58 ∧ inp.Nodup)
      ∧ (input (loaded (cus58.take 57))).length = 57 ∧ (input (loaded (cus58 ++ [0x30]))).length = 59
      ∧ ¬(input (loaded (cus58.take 57 ++ [0x72]))).Nodup := by decide +kernel

theorem test_witness_OnlyResetEmptiesASlot :
    step (idleWith [.reset]) = .next (resetInput { idleWith [.reset] with port := [] })
      ∧ (idleWith [.reset]).slot32.valid = true ∧ (idleWith [.reset]).slot58.valid = true
      ∧ (resetInput { idleWith [.reset] with port := [] }).slot32.valid = false
      ∧ (resetInput { idleWith [.reset] with port := [] }).slot58.valid = false := ⟨rfl, rfl, rfl, rfl, rfl⟩

/-- 29 bytes give the 58 symbols that every CAP allows (VC-1); CAP bytes give too many. -/
theorem test_witness_B16encMapsNibbles :
    2 * (input (loaded (List.replicate 29 0x0F))).length ≤ Config.CAP
      ∧ (input (loaded (List.replicate 29 0x0F)))[28]? = some 0x0F
      ∧ Config.CAP < 2 * (input (loaded allOnes)).length := by
  have := le_CAP
  rw [input_allOnes, length_allOnes, input_loaded (by simp), List.length_replicate]
  exact ⟨by omega, rfl, by omega⟩

theorem test_witness_B16decReadsNibbles :
    (let inp := input (loaded [0x34, 0x61, 0x34, 0x42]); inp.length % 2 = 0 ∧ ∀ c ∈ inp, hexval c ≠ none)
      ∧ (input (loaded [0x30])).length % 2 = 1 ∧ (∃ c ∈ input (loaded [0x30, 0x67]), hexval c = none) := by
  decide

theorem test_witness_B16RoundTrip :
    2 * (List.replicate 29 (0xA5 : Byte)).length ≤ 58 ∧ result (b16dec [0x34, 0x42]) = some [0x4B] := by decide

/-- The boundary of CAPACITY: with 36 bytes 58 data symbols without PAD (VC-3), which every CAP allows; with CAP bytes
the string is too long. -/
theorem test_witness_B32encPacksFiveBitGroups :
    (loaded []).slot32.valid = false ∧ alpha32 .hex (loaded (List.replicate 36 0x01)) = .ok B32HEX
      ∧ (let m := (8 * (input (loaded (List.replicate 36 0x01))).length + 4) / 5
         m ≤ Config.CAP ∧ 57 < m ∧ ∃ L, L = (if true then 8 * ((m + 7) / 8) else m) ∧ m ≤ 63 ∧ 63 < L)
      ∧ (let m := (8 * (input (loaded allOnes)).length + 4) / 5
         Config.CAP < (if true then 8 * ((m + 7) / 8) else m) ∧ Config.CAP < m) := by
  have := le_CAP
  rw [input_allOnes, length_allOnes, input_loaded (by simp), List.length_replicate]
  refine ⟨rfl, rfl, ⟨by omega, by omega, _, rfl, by omega, by simp⟩, ?_⟩
  simp only [if_true]
  omega

/-- 36 = 5 * 7 + 1 bytes give 58 data symbols, 35 bytes 56 with PAD set. -/
theorem test_witness_B32encLengths :
    alpha32 .std (loaded (List.replicate 36 0x01)) = .ok B32STD
      ∧ (input (loaded (List.replicate 36 0x01))).length = 5 * 7 + 1
      ∧ (1, 8 * 7 + 2, 8 * 7 + 8, 2) ∈ ([(0, 8 * 7, 8 * 7, 0), (1, 8 * 7 + 2, 8 * 7 + 8, 2)] : List (Nat × Nat × Nat × Nat))
      ∧ 8 * 7 + 2 ≤ Config.CAP ∧ (input (loaded (List.replicate 35 0x01))).length = 5 * 7 + 0
      ∧ 8 * 7 ≤ Config.CAP := by
  have := le_CAP
  rw [input_loaded (by simp), input_loaded (by simp)]
  exact ⟨rfl, rfl, by decide, by omega, rfl, by omega⟩

/-- `MY=A` has a foreign code before its trailing padding, `MY======` has none. -/
theorem test_witness_B32decUnpacksFiveBitGroups :
    (loaded []).slot32.valid = false ∧ alpha32 .std (loaded []) = .ok B32STD
      ∧ stripPadding (input (loaded [0x4D, 0x59, 0x3D, 0x41])) = [0x4D, 0x59, 0x3D, 0x41]
      ∧ (∃ c ∈ ([0x4D, 0x59, 0x3D, 0x41] : List Byte), c ∉ B32STD)
      ∧ stripPadding (input (loaded ([0x4D, 0x59] ++ List.replicate 6 padSymbol))) = [0x4D, 0x59]
      ∧ (∀ c ∈ ([0x4D, 0x59] : List Byte), c ∈ B32STD) := ⟨rfl, rfl, by decide, by decide, by decide, by decide⟩

/-- `MY` and `MZ` differ in the two dropped bits only. -/
theorem test_witness_B32decIgnoresPaddingAndDroppedBits :
    IsAlphabet 32 B32STD ∧ padSymbol ∉ B32STD ∧ idx B32STD 0x59 = some 24 ∧ idx B32STD 0x5A = some 25
      ∧ 24 / 2 ^ (5 * (([0x4D] : List Byte).length + 1) % 8) = 25 / 2 ^ (5 * (([0x4D] : List Byte).length + 1) % 8) :=
  ⟨⟨rfl, by decide⟩, by decide, by decide, by decide, by decide⟩

theorem holds_withOutput {s : State} {out : List Byte} (h : out.length ≤ 58) : (s.withOutput out).HoldsOutput out := by
  refine ⟨rfl, ?_, fun i _ => by simp⟩
  simp; omega

/-- `B32ENC.CUS.P` of "fo" and its string under the same custom alphabet. -/
theorem test_witness_B32RoundTrip :
    let s := loaded [0x66, 0x6F]
    let out : List Byte := [0x4D, 0x5A, 0x58, 0x51, 0x3D, 0x3D, 0x3D, 0x3D]
    s.Inv ∧ exec (.b32enc .std true) s = .next (s.withOutput out) ∧ (s.withOutput out).HoldsOutput out
      ∧ input (loaded out) = out ∧ alpha32 .std (loaded out) = alpha32 .std s :=
  ⟨inv_loaded (by have := le_CAP; simp; omega), rfl, holds_withOutput (by decide), rfl, rfl⟩

theorem test_witness_B32PaddingOnlyAppends :
    IsAlphabet 32 B32STD
      ∧ b32enc 58 B32STD true [0x66, 0x6F] = .ok [0x4D, 0x5A, 0x58, 0x51, 0x3D, 0x3D, 0x3D, 0x3D] :=
  ⟨⟨rfl, by decide⟩, rfl⟩

theorem test_witness_ByteArrayConversionAgrees :
    (∀ x ∈ ([4, 23] : List Nat), x < 58) ∧ ([4, 23] : List Nat).length ≤ 2 := by decide

/-- An empty slot; the string of `[0, 0, 1, 2]`, which fits; a payload whose string does not. -/
theorem test_witness_B58encConvertsTheRadix :
    Instr.b58enc .cus ≠ .b58enc .hex ∧ (loaded []).slot58.valid = false
      ∧ alpha58 .std (loaded [0, 0, 1, 2]) = .ok B58STD
      ∧ (base58String B58STD (input (loaded [0, 0, 1, 2]))).length ≤ Config.CAP
      ∧ Config.CAP < (base58String B58STD (input (loaded allOnes))).length := by
  refine ⟨by decide, rfl, rfl, ?_, ?_⟩
  · have : (base58String B58STD (input (loaded [0, 0, 1, 2]))).length = 4 := by decide +kernel
    have := le_CAP
    omega
  · have := long_string B58STD []
    rwa [List.append_nil, ← input_allOnes] at this

/-- `11l` has a foreign code, `115T` has none. -/
theorem test_witness_B58decConvertsTheRadix :
    (loaded []).slot58.valid = false ∧ alpha58 .std (loaded [0x31, 0x31, 0x6C]) = .ok B58STD
      ∧ (∃ c ∈ input (loaded [0x31, 0x31, 0x6C]), c ∉ B58STD)
      ∧ (∀ c ∈ input (loaded [0x31, 0x31, 0x35, 0x54]), c ∈ B58STD) ∧ (loaded [0x31, 0x31, 0x35, 0x54]).Inv :=
  ⟨rfl, rfl, by decide, by decide, inv_loaded (by have := le_CAP; simp; omega)⟩

/-- Zero bytes only, and 38 bytes, where R205's bound is 58. -/
theorem test_witness_B58LengthBounds :
    ([0, 0] : List Byte).length = lz [0, 0] ∧ alpha58 .std (loaded (List.replicate 38 0xFF)) = .ok B58STD
      ∧ 138 * ((input (loaded (List.replicate 38 0xFF))).length + 4) / 100 + 1 ≤ Config.CAP := by
  have := le_CAP
  rw [input_loaded (by simp), List.length_replicate]
  exact ⟨by decide, rfl, by omega⟩

/-- S4 in either direction. -/
theorem test_witness_B58EncodeAndDecodeAreInverse :
    let b : List Byte := [0, 0, 1, 2]
    let str : List Byte := [0x31, 0x31, 0x35, 0x54]
    (loaded b).Inv ∧ (loaded str).Inv ∧ exec (.b58enc .std) (loaded b) = .next ((loaded b).withOutput str)
      ∧ ((loaded b).withOutput str).HoldsOutput str ∧ input (loaded str) = str
      ∧ exec (.b58dec .std) (loaded str) = .next ((loaded str).withOutput b)
      ∧ ((loaded str).withOutput b).HoldsOutput b ∧ input (loaded b) = b
      ∧ alpha58 .std (loaded str) = alpha58 .std (loaded b) :=
  ⟨inv_loaded (by have := le_CAP; simp; omega), inv_loaded (by have := le_CAP; simp; omega), rfl,
    holds_withOutput (by decide), rfl, rfl, holds_withOutput (by decide), rfl, rfl⟩

/-- A payload of CAP bytes, to which the 4 bytes of any checksum are appended, has too long a string. -/
theorem test_witness_B58cencAppendsTheChecksum :
    (loaded []).slot58.valid = false ∧ alpha58 .std (loaded []) = .ok B58STD
      ∧ (base58String B58STD (input (loaded []) ++ ck Config.H (input (loaded [])))).length ≤ Config.CAP
      ∧ Config.CAP < (base58String B58STD (input (loaded allOnes) ++ ck Config.H (input (loaded allOnes)))).length := by
  refine ⟨rfl, rfl, ?_, ?_⟩
  · have hin : input (loaded []) = [] := rfl
    rw [hin, List.nil_append]
    exact (short_string (length_ck [])).trans (by have := le_CAP; omega)
  · rw [input_allOnes]; exact long_string _ _

/-- A foreign code; three decoded bytes; and strings that decode to the byte 0x01 followed by 4 bytes that differ from
its checksum, and by its checksum. -/
theorem test_witness_B58cdecVerifiesTheChecksum :
    (loaded []).slot58.valid = false ∧ alpha58 .std (loaded []) = .ok B58STD
      ∧ (∃ c ∈ input (loaded [0x30]), c ∉ B58STD)
      ∧ ((∀ c ∈ input (loaded [0x32]), c ∈ B58STD) ∧ IsBase58Decoding B58STD (input (loaded [0x32])) [0x01])
      ∧ (∃ c : List Byte, c.length = 4 ∧ (∀ x ∈ input (loaded (stringOf c)), x ∈ B58STD)
          ∧ IsBase58Decoding B58STD (input (loaded (stringOf c))) ([0x01] ++ c)
          ∧ (Config.H (Config.H [0x01])).take 4 ≠ c)
      ∧ (∃ c : List Byte, c.length = 4 ∧ (∀ x ∈ input (loaded (stringOf c)), x ∈ B58STD)
          ∧ IsBase58Decoding B58STD (input (loaded (stringOf c))) ([0x01] ++ c)
          ∧ (Config.H (Config.H [0x01])).take 4 = c) := by
  have hs : ∀ c : List Byte, c.length = 4 → (∀ x ∈ input (loaded (stringOf c)), x ∈ B58STD)
      ∧ IsBase58Decoding B58STD (input (loaded (stringOf c))) ([0x01] ++ c) := by
    intro c hc
    rw [input_loaded (length_stringOf hc)]
    exact stringOf_decodes c
  refine ⟨rfl, rfl, by decide, ⟨by decide, ?_⟩, ?_, ?_⟩
  · exact ⟨0, [0x01], [1], rfl, lookupAll_eq_some.1 (by decide), by decide, by decide, by omega, by decide⟩
  · by_cases h : (Config.H (Config.H [0x01])).take 4 = [0, 0, 0, 0]
    · exact ⟨[0, 0, 0, 1], rfl, (hs _ rfl).1, (hs _ rfl).2, by rw [h]; decide⟩
    · exact ⟨[0, 0, 0, 0], rfl, (hs _ rfl).1, (hs _ rfl).2, h⟩
  · exact ⟨_, length_ck [0x01], (hs _ (length_ck [0x01])).1, (hs _ (length_ck [0x01])).2, rfl⟩

/-- The checksummed string of the empty payload, with whatever checksum `Config.H` gives. -/
theorem test_witness_ChecksumRoundTrip :
    let out := base58String B58STD ([] ++ ck Config.H [])
    (loaded []).Inv ∧ exec (.b58cenc .std) (loaded []) = .next ((loaded []).withOutput out)
      ∧ ((loaded []).withOutput out).HoldsOutput out ∧ input (loaded out) = out
      ∧ alpha58 .std (loaded out) = alpha58 .std (loaded []) := by
  have hs := short_string (length_ck [])
  refine ⟨inv_loaded (by simp), ?_, holds_withOutput (hs.trans (by omega)), input_loaded (by simp; omega), rfl⟩
  have hcap := le_CAP
  have hin : input (loaded []) = [] := rfl
  have hr : b58cenc Config.H Config.CAP B58STD [] = .ok (base58String B58STD ([] ++ ck Config.H [])) := by
    rw [b58cenc, b58enc, if_neg (by rw [List.nil_append]; omega)]
  show Host.Outcome.next ((loaded []).finish (b58cenc Config.H Config.CAP B58STD (input (loaded [])))) = _
  rw [hin, hr, State.finish_ok]

theorem test_witness_ChecksumWrapsBase58 :
    (∀ m, 4 ≤ (htoy m).length) ∧ IsAlphabet 58 B58STD
      ∧ b58dec B58STD [0x31, 0x57, 0x42, 0x6A, 0x34, 0x6D, 0x39, 0x45] = .ok ([0x00, 0x01, 0x02] ++ [0xAE, 0xA6, 0x04, 0xA5])
      ∧ b58cenc htoy 58 B58STD [0x00, 0x01, 0x02] = .ok [0x31, 0x57, 0x42, 0x6A, 0x34, 0x6D, 0x39, 0x45] :=
  ⟨fun _ => le_refl _, ⟨rfl, by decide⟩, result_eq (by decide +kernel), result_eq (by decide +kernel)⟩

theorem test_witness_CmdWriteStartsTheCommand :
    (idleWith [.access (.wr 0 0xDEADBE10)]).phase = .idle
      ∧ (idleWith [.access (.wr 0 0xDEADBE10)]).port = [.access (.wr 0 0xDEADBE10)] := by decide

/-- VH-10, VH-3 and VH-6, and VH-8 in every instance whose CAP is not the greatest. -/
theorem test_witness_InLenTakesValuesUpToCap :
    (idleWith [.access (.wr 3 0)]).phase = .idle ∧ (3 : Nat) ≠ 0 ∧ (0 : Word).toNat ≤ Config.CAP
      ∧ (BitVec.ofNat 32 Config.CAP).toNat ≤ Config.CAP ∧ ¬((1 : Nat) = 3) ∧ ¬((5 : Nat) = 3)
      ∧ (Config.CAP + 1 < 2 ^ 32 → Config.CAP < (BitVec.ofNat 32 (Config.CAP + 1)).toNat) := by
  refine ⟨rfl, by decide, by simp, ?_, by decide, by decide, fun h => ?_⟩
  · rw [BitVec.toNat_ofNat, Nat.mod_eq_of_lt CAP_lt]
  · rw [BitVec.toNat_ofNat, Nat.mod_eq_of_lt h]; omega

/-- VH-12 and VH-13. -/
theorem test_witness_WinWritesOneUnit :
    (idleWith [.access (.win 0 0xAB)]).phase = .idle ∧ Config.CAP - 1 < Config.CAP ∧ Config.CAP ≤ Config.CAP := by
  have := le_CAP
  exact ⟨rfl, by omega, le_refl _⟩

/-- The lines 11 to 13 of program P5. -/
theorem test_witness_WritesWhileBusyAreLost :
    (inFlight 0x11 1 [.access (.win 0 0x00)]).phase = .busy ∧ (inFlight 0x11 1 [.access (.win 0 0x00)]).delay ≠ 0
      ∧ (inFlight 0x11 1 [.access (.wr 0 0x10)]).port = [.access (.wr 0 0x10)] := by decide

theorem test_witness_ReadsHaveNoSideEffect :
    hostDue (idleWith [.access (.rd 2)]) ∧ hostDue (inFlight 0x10 1 [.access (.rout 0)]) :=
  ⟨.inl rfl, .inr (by decide)⟩

theorem test_witness_RegisterReads :
    hostDue (idleWith [.access (.rd 0xFFFFFFFF)]) ∧ (idleWith [.access (.rd 2)]).phase = .idle
      ∧ hostDue (inFlight 0x10 1 [.access (.rd 0)]) ∧ (5 : Nat) ≤ 5 := ⟨.inl rfl, rfl, .inr (by decide), by decide⟩

theorem test_witness_BufferReads :
    0 < Config.CAP ∧ hostDue (inFlight 0x10 1 [.access (.rin 0)])
      ∧ ((idleWith [.access (.rout 1)]).withOutput [0x36, 0x37]).phase = .idle
      ∧ ((idleWith [.access (.rout 1)]).withOutput [0x36, 0x37]).HoldsOutput [0x36, 0x37]
      ∧ ([0x36, 0x37] : List Byte)[1]? = some 0x37 :=
  ⟨by have := le_CAP; omega, .inr (by decide), rfl, holds_withOutput (by decide), rfl⟩

theorem test_witness_FinishedOutputIsHeld :
    (List.replicate 58 (0x31 : Byte)).length ≤ Config.CAP
      ∧ ((loaded []).withOutput (List.replicate 58 0x31)).HoldsOutput (List.replicate 58 0x31) :=
  ⟨by have := le_CAP; simpa, holds_withOutput (by simp)⟩

theorem test_witness_InputsAreStableWhileBusy :
    (inFlight 0x3A 1 [.wait]).phase = .busy ∧ (inFlight 0x3A 1 [.wait]).delay ≠ 0
      ∧ (inFlight 0x3A 1 [.wait]).port.head? ≠ some .reset := by decide

theorem test_witness_CommandInFlightCompletes :
    (inFlight 0x10 3 [.access (.wr 0 0x11), .rdout]).phase = .busy
      ∧ HostLine.reset ∉ (inFlight 0x10 3 [.access (.wr 0 0x11), .rdout]).port := by decide

theorem test_witness_WaitEndsWhenIdle : (inFlight 0x10 3 [.wait]).port = .wait :: [] := by decide

/-- A CMD write as the last line, served while IDLE and while BUSY: the run ends at once, BUSY; and a WAIT as the last
line. -/
theorem test_witness_RunEndsWithItsLastLine :
    (idleWith ([] ++ [.access (.wr 0 0x10)])).port = [] ++ [.access (.wr 0 0x10)]
      ∧ (idleWith [.access (.wr 0 0x10)]).RunEndsAt (serve (idleWith [.access (.wr 0 0x10)]))
      ∧ (inFlight 0x10 1 [.access (.wr 0 0x11)]).RunEndsAt (serve (passTime (inFlight 0x10 1 [.access (.wr 0 0x11)])))
      ∧ (idleWith [.access (.rd 1), .wait]).port = [.access (.rd 1)] ++ [.wait]
      ∧ (idleWith [.wait]).RunEndsAt (serve (idleWith [.wait])) :=
  ⟨rfl, ⟨1, rfl⟩, ⟨1, rfl⟩, rfl, ⟨1, rfl⟩⟩

theorem test_witness_LdinLoadsTheInput :
    (idleWith (ldin [0x66, 0x6F] ++ [.wait])).phase = .idle ∧ (List.replicate 58 (0x66 : Byte)).length ≤ Config.CAP
      ∧ (idleWith (ldin [0x66, 0x6F] ++ [.wait])).port
        = [.access (.win 0 0x66), .access (.win 1 0x6F), .access (.wr 3 2), .wait] :=
  ⟨rfl, by have := le_CAP; simpa, by decide⟩

theorem test_witness_ResetValues :
    hostDue (idleWith [.reset]) ∧ hostDue (inFlight 0x10 1 [.reset, .wait])
      ∧ (inFlight 0x10 1 [.reset, .wait]).port = .reset :: [.wait] := ⟨.inl rfl, .inr (by decide), by decide⟩

/-- A state with IN written, and one that is about to run a command. -/
theorem test_witness_StepKeepsTheInvariant :
    (loaded [0x66, 0x6F]).Inv
      ∧ step ((loaded [0x30]).withFetchWord 32 0x20) = .next (((loaded [0x30]).withFetchWord 32 0x20).raise .format) :=
  ⟨inv_loaded (by have := le_CAP; simp; omega), rfl⟩

/-- `LDIN` of nothing, `RUN B16ENC` and `RDOUT` from reset: the first line is served. -/
theorem test_witness_ReachableStatesMeetTheInvariant :
    ∃ t, stepN 1 { State.reset with port := ldin [] ++ runCommand .b16enc ++ [.rdout] } = .next t :=
  ⟨_, rfl⟩

end Sys2Proof.Machine.Tests
end

section
/-! SUPPORT. How long a command's output can be: an encode command compares it with CAP, a decode command never gives
more units than it takes (spec/41_base16.md R121, spec/42_base32.md R133, spec/43_base58.md R156, spec/60_exceptions.md
R202). With it the `ok(out)` arm of the engine step keeps OUT_LEN at CAP or less. -/

namespace Sys2Proof.Machine

/-! ### Base-16 and Base-32 -/

@[simp] theorem length_hexString (b : List Byte) : (hexString b).length = 2 * b.length := by
  simp [hexString, hexPair, List.length_flatMap, Nat.mul_comm]

theorem length_nibblePairs : ∀ g : List Nat, (nibblePairs g).length = g.length / 2
  | [] => rfl
  | [_] => by simp [nibblePairs]
  | _ :: _ :: g => by simp only [nibblePairs, List.length_cons, length_nibblePairs g]; omega

theorem b16enc_length_le {cap : Nat} {b out : List Byte} (h : b16enc cap b = .ok out) : out.length ≤ cap := by
  unfold b16enc at h
  split at h <;> cases h
  rw [length_hexString]; omega

theorem b16dec_length_le {s out : List Byte} (h : b16dec s = .ok out) : out.length ≤ s.length := by
  unfold b16dec at h
  split at h
  · cases h
  · split at h <;> cases h
    next g hg => rw [length_nibblePairs, lookupAll_length hg]; omega

theorem dataSymbols_le_base32Length (pad : Bool) (n : Nat) : dataSymbols n ≤ base32Length pad n := by
  cases pad
  · exact Nat.le_refl _
  · simp only [base32Length, if_true]; omega

@[simp] theorem length_base32String (A : List Byte) (pad : Bool) (b : List Byte) :
    (base32String A pad b).length = base32Length pad b.length := by
  have := dataSymbols_le_base32Length pad b.length
  simp [base32String]; omega

theorem b32enc_length_le {cap : Nat} {A : List Byte} {pad : Bool} {b out : List Byte}
    (h : b32enc cap A pad b = .ok out) : out.length ≤ cap := by
  unfold b32enc at h
  split at h <;> cases h
  rw [length_base32String]; omega

theorem length_stripPadding_le (s : List Byte) : (stripPadding s).length ≤ s.length := by
  simpa [stripPadding] using List.length_dropWhile_le (· == padSymbol) s.reverse

@[simp] theorem length_streamBytes (g : List Nat) : (streamBytes g).length = 5 * g.length / 8 := by
  simp [streamBytes]

theorem b32dec_length_le {A s out : List Byte} (h : b32dec A s = .ok out) : out.length ≤ s.length := by
  unfold b32dec at h
  split at h <;> cases h
  next g hg =>
    have := length_stripPadding_le s
    rw [length_streamBytes, lookupAll_length hg]; omega

/-! ### Base-58: leading zero-index symbols give one byte each, and 58 < 256 bounds the rest -/

/-- An index is below the alphabet's size (R106). -/
theorem idx_lt {A : List Byte} {c : Byte} {k : Nat} (h : idx A c = some k) : k < A.length :=
  (List.idxOf?_eq_some_iff.1 h).1

/-- The first symbol has no index but 0. -/
theorem idx_sym_zero {A : List Byte} {k : Nat} (h : idx A (sym A 0) = some k) : k = 0 := by
  cases A with
  | nil => cases h
  | cons a A => simpa [idx, sym, List.idxOf?_cons, eq_comm] using h

theorem val58_append_singleton (g : List Nat) (d : Nat) : val58 (g ++ [d]) = val58 g * 58 + d := by simp [val58]

theorem val58_zero_cons (g : List Nat) : val58 (0 :: g) = val58 g := by simp [val58]

/-- The value of `n` base-58 digits is below `58 ^ n`. -/
theorem val58_lt {g : List Nat} (h : ∀ x ∈ g, x < 58) : val58 g < 58 ^ g.length := by
  induction g using List.reverseRecOn with
  | nil => simp [val58]
  | append_singleton g d ih =>
    have hd : d < 58 := h d (by simp)
    have hg : val58 g < 58 ^ g.length := ih fun x hx => h x (by simp [hx])
    rw [val58_append_singleton, List.length_append, List.length_singleton, pow_succ]
    omega

theorem leadingRun_le (z : Byte) (s : List Byte) : leadingRun z s ≤ s.length :=
  (List.takeWhile_sublist _).length_le

/-- Leading zero-index symbols add nothing to the value, so only the symbols after them bound it. -/
theorem val58_lt_of_leadingRun {A s : List Byte} {g : List Nat} (hA : A.length = 58)
    (h : lookupAll (idx A) s = some g) : val58 g < 58 ^ (s.length - lzs s A) := by
  have hlt : ∀ x ∈ g, x < 58 := lookupAll_bound h fun c k hk => hA ▸ idx_lt hk
  induction s generalizing g with
  | nil => cases h; simp [val58]
  | cons c s ih =>
    by_cases hc : c = sym A 0
    · subst hc
      rw [lookupAll_cons] at h
      obtain ⟨k, hk, gs, hgs, rfl⟩ :
          ∃ k, idx A (sym A 0) = some k ∧ ∃ gs, lookupAll (idx A) s = some gs ∧ k :: gs = g := by
        simpa [Option.bind_eq_some_iff] using h
      obtain rfl := idx_sym_zero hk
      have := ih hgs fun x hx => hlt x (by simp [hx])
      rw [val58_zero_cons]
      simpa [lzs, leadingRun] using this
    · have := val58_lt hlt
      rw [lookupAll_length h] at this
      simpa [lzs, leadingRun, hc] using this

/-- A value below `256 ^ n` fits in `n` bytes. -/
theorem length_bytesMin_le {v n : Nat} (h : v < 256 ^ n) : (bytesMin v).length ≤ n := by
  rw [bytesMin, List.length_map]
  exact (digitsAux_length (by decide) (Nat.le_refl v) n).2 h

theorem b58enc_length_le {cap : Nat} {A b out : List Byte} (h : b58enc cap A b = .ok out) : out.length ≤ cap := by
  unfold b58enc at h
  split at h <;> cases h
  omega

theorem b58dec_length_le {A s out : List Byte} (hA : A.length = 58) (h : b58dec A s = .ok out) :
    out.length ≤ s.length := by
  unfold b58dec at h
  split at h <;> cases h
  next g hg =>
    have hv : val58 g < 256 ^ (s.length - lzs s A) :=
      Nat.lt_of_lt_of_le (val58_lt_of_leadingRun hA hg) (Nat.pow_le_pow_left (by decide) _)
    have hrun : lzs s A ≤ s.length := leadingRun_le ..
    have := length_bytesMin_le hv
    rw [List.length_append, List.length_replicate]
    omega

theorem b58cdec_length_le {H : List Byte → List Byte} {A s out : List Byte} (hA : A.length = 58)
    (h : b58cdec H A s = .ok out) : out.length ≤ s.length := by
  unfold b58cdec at h
  split at h
  · cases h
  · next d hd =>
    have := b58dec_length_le hA hd
    split at h
    · cases h
    · split at h <;> cases h
      rw [List.length_take]; omega

/-! ### All commands -/

/-- A selected Base-58 alphabet has 58 symbols: a slot's table does whatever it holds (R100, R105). -/
theorem alpha58_length {a : ASel} {s : State} {A : List Byte} (h : alpha58 a s = .ok A) : A.length = 58 := by
  cases a with
  | std => cases h; rfl
  | hex => cases h
  | cus =>
    simp only [alpha58, slotAlphabet] at h
    split at h <;> cases h
    simp

/-- A computation that goes on after a selection succeeds only if both parts do. -/
theorem bind_eq_ok {α β : Type} {x : Except ErrKind α} {f : α → Except ErrKind β} {b : β} (h : x.bind f = .ok b) :
    ∃ a, x = .ok a ∧ f a = .ok b := by
  cases x with
  | error e => cases h
  | ok a => exact ⟨a, rfl, h⟩

/-- The output of a codec command has at most CAP units when the data operand has. -/
theorem codecResult_length_le {i : Instr} {s : State} {out : List Byte} (hin : s.inLen.toNat ≤ Config.CAP)
    (h : codecResult i s = some (.ok out)) : out.length ≤ Config.CAP := by
  rw [← length_input] at hin
  cases i <;> simp only [codecResult, Option.some.injEq, reduceCtorEq] at h
  case b16enc => exact b16enc_length_le h
  case b16dec => exact (b16dec_length_le h).trans hin
  case b32enc a pad => obtain ⟨A, -, h⟩ := bind_eq_ok h; exact b32enc_length_le h
  case b32dec a => obtain ⟨A, -, h⟩ := bind_eq_ok h; exact (b32dec_length_le h).trans hin
  case b58enc a => obtain ⟨A, -, h⟩ := bind_eq_ok h; exact b58enc_length_le h
  case b58dec a => obtain ⟨A, hA, h⟩ := bind_eq_ok h; exact (b58dec_length_le (alpha58_length hA) h).trans hin
  case b58cenc a => obtain ⟨A, -, h⟩ := bind_eq_ok h; exact b58enc_length_le h
  case b58cdec a => obtain ⟨A, hA, h⟩ := bind_eq_ok h; exact (b58cdec_length_le (alpha58_length hA) h).trans hin

end Sys2Proof.Machine
end

section
/-! SUPPORT. The state invariant of spec/10_state.md R35: it holds at reset, each end of a command and each service of
the host keeps it, hence every step, hence every run. -/

namespace Sys2Proof.Machine

/-- OUT_LEN shows the length of an output of at most CAP units. -/
theorem toNat_withOutput_outLen {out : List Byte} (h : out.length ≤ Config.CAP) (s : State) :
    (s.withOutput out).outLen.toNat = out.length := by
  rw [State.withOutput_outLen, BitVec.toNat_ofNat]
  exact Nat.mod_eq_of_lt (Nat.lt_of_le_of_lt h CAP_lt)

namespace State.Inv

/-! ### The ends of a command (R27) -/

theorem raise {s : State} (h : s.Inv) (e : ErrKind) : (s.raise e).Inv :=
  { h with
    outLen_le := by simp
    err_le := e.code_le
    err_outLen := fun _ => rfl
    outBuf_indices := rfl }

theorem withOutput {s : State} (h : s.Inv) {out : List Byte} (hlen : out.length ≤ Config.CAP) :
    (s.withOutput out).Inv :=
  { h with
    outLen_le := by rwa [toNat_withOutput_outLen hlen]
    err_le := by simp
    err_outLen := fun he => absurd rfl he
    outBuf_indices := by rw [toNat_withOutput_outLen hlen]; exact Memory.map_fst_ofUnits out }

theorem withSlot32 {s : State} (h : s.Inv) {tab : Vector Byte 32} (hnd : tab.toList.Nodup)
    (hpad : padSymbol ∉ tab.toList) : (s.withSlot32 tab).Inv :=
  { h with
    outLen_le := by simp
    err_le := by simp
    err_outLen := fun _ => rfl
    slot32_alphabet := fun _ => ⟨by simp, hnd⟩
    slot32_noPad := fun _ => hpad
    outBuf_indices := rfl }

theorem withSlot58 {s : State} (h : s.Inv) {tab : Vector Byte 58} (hnd : tab.toList.Nodup) : (s.withSlot58 tab).Inv :=
  { h with
    outLen_le := by simp
    err_le := by simp
    err_outLen := fun _ => rfl
    slot58_alphabet := fun _ => ⟨by simp, hnd⟩
    outBuf_indices := rfl }

theorem exec {i : Instr} {s t : State} (h : s.Inv) (he : exec i s = .next t) : t.Inv := by
  rcases exec_ends he with ⟨out, hr, rfl⟩ | ⟨e, rfl⟩ | ⟨tab, -, hl, rfl⟩ | ⟨tab, -, hl, rfl⟩
  · exact h.withOutput (codecResult_length_le h.inLen_le hr)
  · exact h.raise e
  · obtain ⟨htab, hnd, hpad⟩ := aload32_eq_ok.1 hl
    exact h.withSlot32 (htab ▸ hnd) (htab ▸ hpad)
  · obtain ⟨htab, hnd⟩ := aload58_eq_ok.1 hl
    exact h.withSlot58 (htab ▸ hnd)

theorem engineStep {s t : State} (h : s.Inv) (he : engineStep s = .next t) : t.Inv := by
  rcases engineStep_cases he with ⟨i, -, hi⟩ | rfl
  · exact h.exec hi
  · exact h.raise .illegal

/-! ### The host port (R57) and the reset input (R34, R230) -/

theorem reset : State.reset.Inv where
  inLen_le := by simp [State.reset]
  outLen_le := by simp [State.reset]
  err_le := by simp [State.reset]
  err_outLen := fun he => absurd rfl he
  slot32_alphabet := nofun
  slot32_noPad := nofun
  slot58_alphabet := nofun
  inBuf_wf := .nil
  inBuf_lt := nofun
  outBuf_indices := rfl

theorem resetInput (s : State) : (resetInput s).Inv :=
  { reset with
    slot32_alphabet := nofun
    slot32_noPad := nofun
    slot58_alphabet := nofun }

theorem writeReg {s : State} (h : s.Inv) (k : Nat) (v : Word) : (writeReg s k v).Inv := by
  unfold Machine.writeReg writeRegIdle
  split
  · split
    · exact { h with }
    · split
      next hv => exact { h with inLen_le := hv }
      next => exact h
    · exact h
  · exact h

theorem writeIn {s : State} (h : s.Inv) (i : Nat) (v : Byte) : (writeIn s i v).Inv := by
  unfold Machine.writeIn
  split
  · split
    next hi =>
      refine { h with inBuf_wf := Memory.wf_write i v h.inBuf_wf, inBuf_lt := fun c hc => ?_ }
      rcases Memory.fst_mem_write hc with hc | ⟨d, hd, hc⟩
      · rwa [hc]
      · rw [← hc]; exact h.inBuf_lt d hd
    next => exact h
  · exact h

theorem accessEffect {s : State} (h : s.Inv) (op : HostOp) : (accessEffect s op).Inv := by
  cases op with
  | wr k v => exact h.writeReg k v
  | win i v => exact h.writeIn i v
  | rd k => exact h
  | rin i => exact h
  | rout i => exact h

theorem serveAccess {s : State} (h : s.Inv) (op : HostOp) : (serveAccess s op).Inv :=
  { h.accessEffect op with }

/-- The host's coming lines are no part of the invariant. -/
theorem withPort {s : State} (h : s.Inv) (lines : List HostLine) : State.Inv { s with port := lines } := { h with }

theorem serveLine {s : State} (h : s.Inv) (l : HostLine) : (serveLine s l).Inv := by
  cases l with
  | access op => exact h.serveAccess op
  | wait =>
    simp only [Machine.serveLine]
    split
    · exact (h.withPort _).serveAccess _
    · exact h.serveAccess _
  | rdout => exact (h.withPort _).serveAccess _
  | reset => exact resetInput s

theorem serve {s : State} (h : s.Inv) : (serve s).Inv := by
  cases hp : s.port with
  | nil => rwa [serve_nil hp]
  | cons l rest =>
    rw [serve_cons hp]
    exact (h.withPort rest).serveLine l

/-! ### Steps and runs -/

theorem step {s t : State} (h : s.Inv) (hst : step s = .next t) : t.Inv := by
  rcases step_cases hst with ⟨-, rfl⟩ | ⟨-, -, rfl⟩ | ⟨-, -, he⟩
  · exact h.serve
  · exact State.Inv.serve { h with }
  · exact h.engineStep he

theorem stepN {k : Nat} {s t : State} (h : s.Inv) (hst : stepN k s = .next t) : t.Inv := by
  induction k generalizing s with
  | zero => cases hst; exact h
  | succ k ih =>
    cases hs : Machine.step s with
    | next u => exact ih (h.step hs) (by rwa [stepN_succ hs] at hst)
    | fault f => exact nomatch f
    | refused r => simp [Machine.stepN, hs] at hst

end State.Inv

/-- Settles O54: the engine step keeps the invariant because no output is longer than CAP and a loaded table is
checked, and every service of the host keeps it. -/
theorem stepKeepsTheInvariant : Obligations.StepKeepsTheInvariant := fun _ _ => State.Inv.step

/-- Settles O53: the registers are 0, the buffers list nothing and both slots are empty. -/
theorem resetMeetsTheInvariant : Obligations.ResetMeetsTheInvariant := State.Inv.reset

/-- Settles O55, by induction on the number of steps: the host lines placed at reset are no part of the invariant. -/
theorem reachableStatesMeetTheInvariant : Obligations.ReachableStatesMeetTheInvariant := fun _ _ _ =>
  (State.Inv.reset.withPort _).stepN

end Sys2Proof.Machine
end

section
/-! SUPPORT. What a command keeps, and what its result depends on (spec/10_state.md R27, R30 to R32). -/

namespace Sys2Proof.Machine

/-! ### What every command keeps -/

/-- The command in `s` ended in `t`: PHASE is IDLE, and CMD, IN_LEN, IN and the model's own fields are those of `s`
(R26, R27). -/
structure EndsKeepingInputs (s t : State) : Prop where
  phase : t.phase = .idle
  cmd : t.cmd = s.cmd
  inLen : t.inLen = s.inLen
  inBuf : t.inBuf = s.inBuf
  delay : t.delay = s.delay
  fresh : t.fresh = s.fresh
  epoch : t.epoch = s.epoch
  port : t.port = s.port
  replies : t.replies = s.replies

theorem raise_endsKeepingInputs (e : ErrKind) (s : State) : EndsKeepingInputs s (s.raise e) := by
  constructor <;> rfl

theorem exec_endsKeepingInputs {i : Instr} {s t : State} (h : exec i s = .next t) : EndsKeepingInputs s t := by
  rcases exec_ends h with ⟨out, -, rfl⟩ | ⟨e, rfl⟩ | ⟨tab, -, -, rfl⟩ | ⟨tab, -, -, rfl⟩ <;> constructor <;> rfl

theorem engineStep_endsKeepingInputs {s t : State} (h : engineStep s = .next t) : EndsKeepingInputs s t := by
  rcases engineStep_cases h with ⟨i, -, hi⟩ | rfl
  · exact exec_endsKeepingInputs hi
  · exact raise_endsKeepingInputs .illegal s

/-- Only ALOAD32 writes SLOT32. -/
theorem exec_slot32 {i : Instr} {s t : State} (h : exec i s = .next t) (hi : i ≠ .aload32) : t.slot32 = s.slot32 := by
  rcases exec_ends h with ⟨out, -, rfl⟩ | ⟨e, rfl⟩ | ⟨tab, rfl, -, -⟩ | ⟨tab, -, -, rfl⟩
  · rfl
  · rfl
  · exact absurd rfl hi
  · rfl

/-- Only ALOAD58 writes SLOT58. -/
theorem exec_slot58 {i : Instr} {s t : State} (h : exec i s = .next t) (hi : i ≠ .aload58) : t.slot58 = s.slot58 := by
  rcases exec_ends h with ⟨out, -, rfl⟩ | ⟨e, rfl⟩ | ⟨tab, -, -, rfl⟩ | ⟨tab, rfl, -, -⟩
  · rfl
  · rfl
  · rfl
  · exact absurd rfl hi

theorem exec_err_le {i : Instr} {s t : State} (h : exec i s = .next t) : t.err.toNat ≤ 5 := by
  rcases exec_ends h with ⟨out, -, rfl⟩ | ⟨e, rfl⟩ | ⟨tab, -, -, rfl⟩ | ⟨tab, -, -, rfl⟩
  · simp
  · exact e.code_le
  · simp
  · simp

/-- Every command answers a next state. -/
theorem exec_next (i : Instr) (s : State) : ∃ t, exec i s = .next t := by
  rcases exec_cases i s with ⟨r, -, h⟩ | ⟨-, h⟩ | ⟨-, h⟩ <;> exact ⟨_, h⟩

theorem engineStep_next (s : State) : ∃ t, engineStep s = .next t := by
  cases h : decode s.cmd with
  | ok i => rw [engineStep_ok h]; exact exec_next i s
  | error r => exact ⟨_, engineStep_error h⟩

/-- OUT lists no unit at or above OUT_LEN (R29, R35). -/
theorem State.Inv.read?_outBuf_eq_none {s : State} (h : s.Inv) {a : Nat} (ha : s.outLen.toNat ≤ a) :
    s.outBuf.read? a = none :=
  Memory.read?_eq_none (by rw [h.outBuf_indices, List.mem_range]; omega)

/-- Settles O7, from the four ends of a command; the bound on the units of OUT is the invariant of the next state. -/
theorem commandsKeepTheirInputs : Obligations.CommandsKeepTheirInputs := by
  intro i s
  obtain ⟨t, h⟩ := exec_next i s
  obtain ⟨hphase, hcmd, hinLen, hinBuf, hdelay, hfresh, hepoch, hport, hreplies⟩ := exec_endsKeepingInputs h
  exact ⟨t, h, hphase, hcmd, hinLen, hinBuf, exec_slot32 h, exec_slot58 h, exec_err_le h, hdelay, hfresh, hepoch, hport,
    hreplies, fun hs a => (hs.exec h).read?_outBuf_eq_none⟩

/-! ### What a result depends on -/

theorem slotAlphabet_congr {n : Nat} {p q : Slot n} (h : sameAlphabet p q) : slotAlphabet p = slotAlphabet q := by
  obtain ⟨hvalid, htab⟩ := h
  cases hp : p.valid with
  | true => simp [slotAlphabet, ← hvalid, hp, htab hp]
  | false => simp [slotAlphabet, ← hvalid, hp]

theorem alpha32_congr {s u : State} (h : sameAlphabet s.slot32 u.slot32) (a : ASel) : alpha32 a s = alpha32 a u := by
  cases a with
  | std => rfl
  | hex => rfl
  | cus => exact slotAlphabet_congr h

theorem alpha58_congr {s u : State} (h : sameAlphabet s.slot58 u.slot58) (a : ASel) : alpha58 a s = alpha58 a u := by
  cases a with
  | std => rfl
  | hex => rfl
  | cus => exact slotAlphabet_congr h

/-- A codec result is computed from the data operand and the slots alone. -/
theorem codecResult_congr {s u : State} (hin : input s = input u) (h32 : sameAlphabet s.slot32 u.slot32)
    (h58 : sameAlphabet s.slot58 u.slot58) (i : Instr) : codecResult i s = codecResult i u := by
  cases i <;> simp only [codecResult, hin, alpha32_congr h32, alpha58_congr h58]

/-- A command that has a codec result ends with it. -/
theorem exec_of_codecResult {i : Instr} {s : State} {r : Except ErrKind (List Byte)} (h : codecResult i s = some r) :
    exec i s = .next (s.finish r) := by
  rcases exec_cases i s with ⟨r', hr, he⟩ | ⟨rfl, -⟩ | ⟨rfl, -⟩
  · rw [he, Option.some.inj (h.symm.trans hr)]
  · cases h
  · cases h

/-- Two states show the same ERR, OUT_LEN and OUT and hold the same alphabets. -/
def SameResult (s u : State) : Prop :=
  s.err = u.err ∧ s.outLen = u.outLen ∧ s.outBuf = u.outBuf
    ∧ sameAlphabet s.slot32 u.slot32 ∧ sameAlphabet s.slot58 u.slot58

section
variable {s u : State} (h32 : sameAlphabet s.slot32 u.slot32) (h58 : sameAlphabet s.slot58 u.slot58)
include h32 h58

theorem finish_sameResult (r : Except ErrKind (List Byte)) : SameResult (s.finish r) (u.finish r) := by
  cases r <;> exact ⟨rfl, rfl, rfl, h32, h58⟩

theorem finishLoad32_sameResult (r : Except ErrKind (Vector Byte 32)) :
    SameResult (s.finishLoad32 r) (u.finishLoad32 r) := by
  cases r with
  | ok tab => exact ⟨rfl, rfl, rfl, ⟨rfl, fun _ => rfl⟩, h58⟩
  | error e => exact ⟨rfl, rfl, rfl, h32, h58⟩

theorem finishLoad58_sameResult (r : Except ErrKind (Vector Byte 58)) :
    SameResult (s.finishLoad58 r) (u.finishLoad58 r) := by
  cases r with
  | ok tab => exact ⟨rfl, rfl, rfl, h32, ⟨rfl, fun _ => rfl⟩⟩
  | error e => exact ⟨rfl, rfl, rfl, h32, h58⟩

end

/-- Settles O9: equal operands and equal alphabets give the same codec result or the same table to check, and the ends
of a command show nothing else. -/
theorem resultDependsOnOperandsOnly : Obligations.ResultDependsOnOperandsOnly := by
  intro i s u s' u' hin h32 h58 hs hu
  rcases exec_cases i s with ⟨r, hr, he⟩ | ⟨rfl, he⟩ | ⟨rfl, he⟩ <;> rw [he] at hs <;> cases hs
  · rw [exec_of_codecResult ((codecResult_congr hin h32 h58 i).symm.trans hr)] at hu
    cases hu
    exact finish_sameResult h32 h58 r
  · cases hu
    rw [← hin]
    exact finishLoad32_sameResult h32 h58 _
  · cases hu
    rw [← hin]
    exact finishLoad58_sameResult h32 h58 _

end Sys2Proof.Machine
end

section
/-! SUPPORT. A command in flight (spec/10_state.md R27, spec/20_memory.md R59, spec/70_reset_and_hazards.md R244): what
the host does while BUSY, short of a reset, moves the model's own fields only, and the engine step reads none of
them. -/

namespace Sys2Proof.Machine

/-! ### The model's own fields -/

/-- `s` with the model's own fields of `v` that the host's service moves: the delay, the access count, the queue and the
replies. -/
def State.withOwnFieldsOf (s v : State) : State :=
  { s with delay := v.delay, fresh := v.fresh, port := v.port, replies := v.replies }

@[simp] theorem State.withOwnFieldsOf_self (s : State) : s.withOwnFieldsOf s = s := rfl

/-- What was given before does not show any more. -/
@[simp] theorem State.withOwnFieldsOf_withOwnFieldsOf (s v w : State) :
    (s.withOwnFieldsOf v).withOwnFieldsOf w = s.withOwnFieldsOf w := rfl

@[simp] theorem State.finish_withOwnFieldsOf (s v : State) (r : Except ErrKind (List Byte)) :
    (s.withOwnFieldsOf v).finish r = (s.finish r).withOwnFieldsOf v := by cases r <;> rfl

@[simp] theorem State.finishLoad32_withOwnFieldsOf (s v : State) (r : Except ErrKind (Vector Byte 32)) :
    (s.withOwnFieldsOf v).finishLoad32 r = (s.finishLoad32 r).withOwnFieldsOf v := by cases r <;> rfl

@[simp] theorem State.finishLoad58_withOwnFieldsOf (s v : State) (r : Except ErrKind (Vector Byte 58)) :
    (s.withOwnFieldsOf v).finishLoad58 r = (s.finishLoad58 r).withOwnFieldsOf v := by cases r <;> rfl

/-- A command neither reads nor moves the model's own fields. -/
theorem exec_withOwnFieldsOf {i : Instr} {s t : State} (v : State) (h : exec i s = .next t) :
    exec i (s.withOwnFieldsOf v) = .next (t.withOwnFieldsOf v) := by
  rcases exec_cases i s with ⟨r, hr, he⟩ | ⟨rfl, he⟩ | ⟨rfl, he⟩ <;> rw [he] at h <;> cases h
  · have hr' : codecResult i (s.withOwnFieldsOf v) = some r :=
      (codecResult_congr rfl ⟨rfl, fun _ => rfl⟩ ⟨rfl, fun _ => rfl⟩ i).trans hr
    rw [exec_of_codecResult hr', State.finish_withOwnFieldsOf]
  · exact congrArg Host.Outcome.next (s.finishLoad32_withOwnFieldsOf v (aload32 (input s)))
  · exact congrArg Host.Outcome.next (s.finishLoad58_withOwnFieldsOf v (aload58 (input s)))

/-- The engine step neither reads nor moves the model's own fields. -/
theorem engineStep_withOwnFieldsOf {s t : State} (v : State) (h : engineStep s = .next t) :
    engineStep (s.withOwnFieldsOf v) = .next (t.withOwnFieldsOf v) := by
  cases hd : decode s.cmd with
  | ok i =>
    rw [engineStep_ok hd] at h
    rw [engineStep_ok (s := s.withOwnFieldsOf v) hd]
    exact exec_withOwnFieldsOf v h
  | error r =>
    rw [engineStep_error hd] at h
    cases h
    exact engineStep_error (s := s.withOwnFieldsOf v) hd

/-! ### The host's service while BUSY -/

/-- Every write is ignored while BUSY, and a read changes nothing (R59). -/
theorem accessEffect_busy {s : State} (h : s.phase = .busy) (op : HostOp) : accessEffect s op = s := by
  cases op with
  | wr k v => simp [accessEffect, writeReg, h]
  | win i v => simp [accessEffect, writeIn, h]
  | rd k => rfl
  | rin i => rfl
  | rout i => rfl

/-- An access while BUSY is counted and answered, and nothing else. -/
theorem serveAccess_busy {s : State} (h : s.phase = .busy) (op : HostOp) :
    serveAccess s op = { s with replies := (accessReply s op).toList ++ s.replies, fresh := s.fresh + 1 } := by
  rw [serveAccess, accessEffect_busy h op]

/-- From `s` to `t` only the model's own fields moved, the delay not, and no reset came into the queue. -/
structure ServedHarmlessly (s t : State) : Prop where
  eq_withOwnFieldsOf : t = s.withOwnFieldsOf t
  delay : t.delay = s.delay
  reset_notMem : .reset ∉ s.port → .reset ∉ t.port

namespace ServedHarmlessly

theorem refl (s : State) : ServedHarmlessly s s := ⟨rfl, rfl, id⟩

theorem trans {s t u : State} (h : ServedHarmlessly s t) (h' : ServedHarmlessly t u) : ServedHarmlessly s u where
  eq_withOwnFieldsOf :=
    calc u = t.withOwnFieldsOf u := h'.eq_withOwnFieldsOf
      _ = (s.withOwnFieldsOf t).withOwnFieldsOf u := by rw [← h.eq_withOwnFieldsOf]
      _ = s.withOwnFieldsOf u := s.withOwnFieldsOf_withOwnFieldsOf t u
  delay := h'.delay.trans h.delay
  reset_notMem := h'.reset_notMem ∘ h.reset_notMem

theorem withPort {s : State} {lines : List HostLine} (h : .reset ∉ s.port → .reset ∉ lines) :
    ServedHarmlessly s { s with port := lines } := ⟨rfl, rfl, h⟩

theorem serveAccess {s : State} (h : s.phase = .busy) {lines : List HostLine} (hl : .reset ∉ s.port → .reset ∉ lines)
    (op : HostOp) : ServedHarmlessly s (serveAccess { s with port := lines } op) := by
  rw [serveAccess_busy (s := { s with port := lines }) h op]
  exact ⟨rfl, rfl, hl⟩

/-- Every line but the reset input is harmless while BUSY (R59). -/
theorem serveLine {s : State} (h : s.phase = .busy) {l : HostLine} (hl : l ≠ .reset) :
    ServedHarmlessly s (serveLine s l) := by
  cases l with
  | reset => exact absurd rfl hl
  | access op => exact serveAccess h id op
  | wait =>
    simp only [Machine.serveLine]
    split
    · exact serveAccess h (by simp) _
    · exact serveAccess h id _
  | rdout => exact serveAccess h (by simp) _

theorem serve {s : State} (h : s.phase = .busy) (hr : s.port.head? ≠ some .reset) : ServedHarmlessly s (serve s) := by
  cases hp : s.port with
  | nil => rw [serve_nil hp]; exact refl s
  | cons l rest =>
    have hl : l ≠ .reset := by simpa [hp] using hr
    have hrest : .reset ∉ s.port → .reset ∉ rest := fun h' hm => h' (by simp [hp, hm])
    rw [serve_cons hp]
    exact (withPort hrest).trans (serveLine (s := { s with port := rest }) h hl)

end ServedHarmlessly

/-- A command in flight ends after as many steps as its delay, with the end its own state has; what the host did
meanwhile shows in the model's own fields only. -/
theorem stepN_delay {s t : State} (hbusy : s.phase = .busy) (hreset : .reset ∉ s.port) (he : engineStep s = .next t) :
    ∃ v, stepN (s.delay + 1) s = .next (t.withOwnFieldsOf v) := by
  induction hd : s.delay generalizing s t with
  | zero => exact ⟨t, by rw [stepN_succ ((step_engine hbusy hd).trans he), stepN_zero, t.withOwnFieldsOf_self]⟩
  | succ d ih =>
    have hserved : ServedHarmlessly (passTime s) (serve (passTime s)) :=
      .serve hbusy fun hh => hreset (List.mem_of_head? hh)
    have hstep : step s = .next (serve (passTime s)) := step_busy hbusy (by omega)
    generalize serve (passTime s) = u at hserved hstep
    have hus : u = s.withOwnFieldsOf u := hserved.eq_withOwnFieldsOf
    obtain ⟨v, hv⟩ := ih (s := u) (t := t.withOwnFieldsOf u) (by rw [hus]; exact hbusy) (hserved.reset_notMem hreset)
      (by rw [hus]; exact engineStep_withOwnFieldsOf u he) (by rw [hserved.delay, passTime_delay]; omega)
    exact ⟨v, by rw [stepN_succ hstep, hv, State.withOwnFieldsOf_withOwnFieldsOf]⟩

/-- Settles O48: the run ends as the engine step of the state at the CMD write does, by induction on the delay. -/
theorem commandInFlightCompletes : Obligations.CommandInFlightCompletes := by
  intro s hbusy hreset
  obtain ⟨u, hu⟩ := engineStep_next s
  obtain ⟨v, hv⟩ := stepN_delay hbusy hreset hu
  have hend := engineStep_endsKeepingInputs hu
  exact ⟨u.withOwnFieldsOf v, u, hv, hu, hend.phase, hend.cmd, hend.inLen, hend.inBuf, rfl, rfl, rfl, rfl, rfl⟩

end Sys2Proof.Machine
end

section
/-! SUPPORT. The decoded command (spec/30_encoding.md R91): the word of a well-formed command decodes to it, and a due
engine step runs it (spec/10_state.md R27). -/

namespace Sys2Proof

/-- The fields of an instruction's word, for every instruction (R81 to R84). -/
theorem encode_fields (i : Instr) : Laws.EncodeFields.Statement i := by
  open Laws.EncodeFields in
  cases i with
  | b16enc => exact b16enc
  | b16dec => exact b16dec
  | b32enc a pad => exact b32enc a pad
  | b32dec a => exact b32dec a
  | b58enc a => exact b58enc a
  | b58dec a => exact b58dec a
  | b58cenc a => exact b58cenc a
  | b58cdec a => exact b58cdec a
  | aload32 => exact aload32
  | aload58 => exact aload58

/-- The case on OP accepts the fields of a well-formed command (R91). -/
theorem decodeOp_fields {i : Instr} (h : i.wf = true) : decodeOp i.opcode.toNat i.asel i.pad = .ok i := by
  cases i with
  | b16enc => rfl
  | b16dec => rfl
  | b32enc a pad => cases a <;> rfl
  | b32dec a => cases a <;> rfl
  | b58enc a =>
    cases a with
    | hex => cases h
    | std => rfl
    | cus => rfl
  | b58dec a =>
    cases a with
    | hex => cases h
    | std => rfl
    | cus => rfl
  | b58cenc a =>
    cases a with
    | hex => cases h
    | std => rfl
    | cus => rfl
  | b58cdec a =>
    cases a with
    | hex => cases h
    | std => rfl
    | cus => rfl
  | aload32 => rfl
  | aload58 => rfl

/-- The word of a well-formed command decodes to the command (R91). -/
theorem decode_encode {i : Instr} (h : i.wf = true) : decode (encode i) = .ok i := by
  obtain ⟨hrsvh, hrsv0, hop, hasel, hpad⟩ := encode_fields i
  simp [decode, hrsvh, hrsv0, hop, hasel, hpad, decodeOp_fields h]

end Sys2Proof

namespace Sys2Proof.Machine

theorem step_decoded {s : State} {i : Instr} (hbusy : s.phase = .busy) (hdue : s.delay = 0)
    (hd : decode s.cmd = .ok i) : step s = exec i s :=
  (step_engine hbusy hdue).trans (engineStep_ok hd)

/-- Settles O5: the engine step of the word a well-formed command encodes to is `exec` of that command. -/
theorem stepRunsTheDecodedCommand : Obligations.StepRunsTheDecodedCommand := by
  refine ⟨fun _ => step_engine, fun _ _ => step_decoded, fun s i hi => ?_⟩
  rw [step_decoded rfl rfl (by rw [State.withFetchWord_cmd, tableWord_toNat, decode_encode hi]), State.withFetchWord,
    tableWord_toNat]

end Sys2Proof.Machine
end

section
/-! SUPPORT. The host port (spec/10_state.md R22 to R29, spec/20_memory.md R57, R59, R65): the step that serves a line,
writes while IDLE, and the values that reads return. -/

namespace Sys2Proof.Machine

/-! ### The step that serves a line -/

/-- While IDLE the step serves the oldest line. -/
theorem step_line_idle {s : State} {l : HostLine} {rest : List HostLine} (h : s.phase = .idle) (hp : s.port = l :: rest) :
    step s = .next (serveLine { s with port := rest } l) := by
  rw [step_idle h, serve_cons hp]

/-- The host is served while IDLE, and while BUSY as long as some delay is left. -/
theorem hostDue_cases {s : State} (h : hostDue s) : s.phase = .idle ∨ s.phase = .busy ∧ s.delay ≠ 0 := by
  cases hs : s.phase with
  | idle => exact .inl rfl
  | busy => exact .inr ⟨rfl, h.resolve_left (by simp [hs])⟩

/-- In either phase, when the engine is not due, the step serves the oldest line, with some delay left. -/
theorem step_line {s : State} {l : HostLine} {rest : List HostLine} (h : hostDue s) (hp : s.port = l :: rest) :
    ∃ d, step s = .next (serveLine { s with port := rest, delay := d } l) := by
  rcases hostDue_cases h with hidle | ⟨hbusy, hd⟩
  · exact ⟨s.delay, step_line_idle hidle hp⟩
  · exact ⟨s.delay - 1, by rw [step_busy hbusy hd, serve_cons (s := passTime s) hp]; rfl⟩

/-! ### Writes while IDLE -/

theorem accessEffect_wr_idle {s : State} (h : s.phase = .idle) (k : Nat) (v : Word) :
    accessEffect s (.wr k v) = writeRegIdle s k v := by
  simp [accessEffect, writeReg, h]

@[simp] theorem writeRegIdle_cmd (s : State) (v : Word) : writeRegIdle s 0 v = startCommand s v := rfl

theorem writeRegIdle_inLen {s : State} {v : Word} (h : v.toNat ≤ Config.CAP) :
    writeRegIdle s 3 v = { s with inLen := v } := if_pos h

/-- A write to a register other than CMD that IN_LEN does not take is ignored (R57, R65). -/
theorem writeRegIdle_ignored {s : State} {k : Nat} {v : Word} (h0 : k ≠ 0) (h3 : ¬(k = 3 ∧ v.toNat ≤ Config.CAP)) :
    writeRegIdle s k v = s := by
  unfold writeRegIdle
  split
  · exact absurd rfl h0
  · exact if_neg fun hv => h3 ⟨rfl, hv⟩
  · rfl

/-- A write that stays in the block answers nothing. -/
theorem step_wr_idle {s : State} {k : Nat} {v : Word} {rest : List HostLine} (h : s.phase = .idle)
    (hp : s.port = .access (.wr k v) :: rest) :
    step s = .next { writeRegIdle { s with port := rest } k v with replies := s.replies, fresh := s.fresh + 1 } := by
  rw [step_line_idle h hp, serveLine, serveAccess, accessEffect_wr_idle (s := { s with port := rest }) h]
  rfl

theorem step_win_idle {s : State} {i : Nat} {v : Byte} {rest : List HostLine} (h : s.phase = .idle)
    (hp : s.port = .access (.win i v) :: rest) :
    step s = .next { s with
      inBuf := if i < Config.CAP then s.inBuf.write i v else s.inBuf, port := rest, fresh := s.fresh + 1 } := by
  rw [step_line_idle h hp, serveLine, serveAccess]
  by_cases hi : i < Config.CAP <;> simp [accessEffect, accessReply, writeIn, h, hi]

/-- Settles O38: a CMD write while IDLE is `startCommand`. -/
theorem cmdWriteStartsTheCommand : Obligations.CmdWriteStartsTheCommand := fun _ _ _ h hp =>
  ⟨_, _, step_wr_idle h hp⟩

/-- Settles O39: IN_LEN takes the value or the write is ignored. -/
theorem inLenTakesValuesUpToCap : Obligations.InLenTakesValuesUpToCap := by
  intro s k v rest h h0 hp
  refine ⟨s.fresh + 1, fun h3 => ?_, fun h3 => ?_⟩
  · obtain ⟨rfl, hv⟩ := h3
    rw [step_wr_idle h hp, writeRegIdle_inLen hv]
  · rw [step_wr_idle h hp, writeRegIdle_ignored h0 h3]

/-- Settles O40: a read after a write, and the write is not done at or above CAP. -/
theorem winWritesOneUnit : Obligations.WinWritesOneUnit := by
  intro s i v rest h hp
  refine ⟨_, _, step_win_idle h hp, fun hi j => ?_, fun hi => if_neg (by omega)⟩
  simp only [inUnit, if_pos hi, Memory.read?_write]
  split <;> rfl

/-! ### Reads -/

/-- A read in either phase, when the engine is not due, answers from the state before it. -/
theorem step_access_replies {s : State} {op : HostOp} {rest : List HostLine} (h : hostDue s)
    (hp : s.port = .access op :: rest) :
    ∃ t, step s = .next t ∧ t.replies = (accessReply s op).toList ++ s.replies := by
  obtain ⟨d, hd⟩ := step_line h hp
  exact ⟨_, hd, by cases op <;> rfl⟩

/-- Settles O43: each defined register has its value in `readReg`, and there is no other. -/
theorem registerReads : Obligations.RegisterReads := by
  intro s k rest h hp
  obtain ⟨t, ht, hr⟩ := step_access_replies h hp
  have hreply {v : Word} (hv : readReg s k = some v) : t.replies = .reg v :: s.replies := by
    rw [hr, accessReply, regReply, hv]; rfl
  refine ⟨t, ht, ?_, ?_, ?_, ?_, ?_, ?_⟩
  · rintro rfl; exact hreply rfl
  · rintro rfl; exact hreply rfl
  · rintro rfl hidle
    exact ⟨s.err.zeroExtend 32, by simp; omega, hreply (by simp [readReg, hidle])⟩
  · rintro rfl; exact hreply rfl
  · rintro rfl hidle; exact hreply (by simp [readReg, hidle])
  · intro hk
    obtain ⟨j, rfl⟩ := Nat.exists_eq_add_of_le' hk
    exact hreply rfl

/-- Settles O45: below CAP, and below the length of the held output, a read has a specified value. -/
theorem bufferReads : Obligations.BufferReads := by
  intro s rest
  refine ⟨fun i hi h hp => ?_, fun i out c hidle hout hc hp => ?_⟩
  · obtain ⟨t, ht, hr⟩ := step_access_replies h hp
    exact ⟨t, ht, by rw [hr, accessReply, inReply, readIn, if_pos hi]; rfl⟩
  · obtain ⟨t, ht, hr⟩ := step_access_replies (.inl hidle) hp
    obtain ⟨hlt, -⟩ := List.getElem?_eq_some_iff.1 hc
    have hread : readOut s i = some c := by
      rw [readOut, if_pos ⟨hidle, by rwa [hout.outLen]⟩, hout.units i hlt, hc]
    exact ⟨t, ht, by rw [hr, accessReply, outReply, hread]; rfl⟩

/-! ### STATUS (R23) -/

/-- STATUS has its four views in bits 3:0 and zeros above. -/
theorem getLsbD_statusReg (s : State) (i : Nat) :
    (statusReg s).getLsbD i = match i with
      | 0 => statusBusy s
      | 1 => statusErrf s
      | 2 => statusV32 s
      | 3 => statusV58 s
      | _ => false := by
  change BitVec.getLsbD (w := 28 + 1 + 1 + 1 + 1) _ i = _
  simp only [statusReg, BitVec.getLsbD_append]
  match i with
  | 0 | 1 | 2 | 3 => simp
  | i + 4 => simp

theorem statusErrf_iff (s : State) : statusErrf s = true ↔ s.phase = .idle ∧ s.err ≠ 0 := by
  simp [statusErrf]

/-- STATUS is 0 while IDLE with no error and both slots empty (R23). -/
theorem statusReg_eq_zero {s : State} (hphase : s.phase = .idle) (herr : s.err = 0) (h32 : s.slot32.valid = false)
    (h58 : s.slot58.valid = false) : statusReg s = 0 := by
  simp only [statusReg, statusBusy, statusErrf, statusV32, statusV58, hphase, herr, h32, h58]
  decide

/-- Settles O44: bit by bit. -/
theorem statusBits : Obligations.StatusBits := by
  intro s
  simp only [getLsbD_statusReg]
  refine ⟨by simp [statusBusy], statusErrf_iff s, Iff.rfl, Iff.rfl, fun i hi => ?_,
    statusReg_eq_zero rfl rfl rfl rfl⟩
  obtain ⟨j, rfl⟩ := Nat.exists_eq_add_of_le' hi
  rfl

/-! ### The output that is held (R27, R29) -/

theorem withOutput_holdsOutput {out : List Byte} (h : out.length ≤ Config.CAP) (s : State) :
    (s.withOutput out).HoldsOutput out where
  err := rfl
  outLen := toNat_withOutput_outLen h s
  units i _ := Memory.read?_ofUnits out i

/-- A state holds at most one output. -/
theorem State.HoldsOutput.unique {s : State} {out out' : List Byte} (h : s.HoldsOutput out) (h' : s.HoldsOutput out') :
    out = out' := by
  have hlen : out.length = out'.length := h.outLen.symm.trans h'.outLen
  refine List.ext_getElem? fun i => ?_
  by_cases hi : i < out.length
  · rw [← h.units i hi, h'.units i (hlen ▸ hi)]
  · rw [List.getElem?_eq_none (by omega), List.getElem?_eq_none (by omega)]

/-- Settles O46: OUT_LEN gives the length of a held output and OUT its units. -/
theorem finishedOutputIsHeld : Obligations.FinishedOutputIsHeld :=
  ⟨fun s _ h => withOutput_holdsOutput h s, fun _ _ _ => State.HoldsOutput.unique⟩

/-! ### Reset (R34, R230) -/

/-- Settles O52: the step serves the reset input, which leaves the reset values. -/
theorem resetValues : Obligations.ResetValues := by
  refine ⟨⟨rfl, rfl, rfl, rfl, rfl, statusReg_eq_zero rfl rfl rfl rfl, rfl, rfl⟩, fun s rest h hp => ?_⟩
  obtain ⟨d, hd⟩ := step_line h hp
  exact ⟨_, hd, rfl, rfl, rfl, rfl, rfl, statusReg_eq_zero rfl rfl rfl rfl, rfl, rfl, rfl, rfl, rfl⟩

end Sys2Proof.Machine
end

section
/-! SUPPORT. Steps that serve an access, and that every step answers (spec/20_memory.md R57, R59, R63, R65,
spec/60_exceptions.md R200, spec/70_reset_and_hazards.md R235). -/

namespace Sys2Proof.Machine

/-! ### A step while BUSY -/

/-- While the engine is not due, a step that serves no reset moves the model's own fields only (R59, R63). -/
theorem step_servedHarmlessly {s : State} (hbusy : s.phase = .busy) (hd : s.delay ≠ 0)
    (hr : s.port.head? ≠ some .reset) : ∃ t, step s = .next t ∧ ServedHarmlessly (passTime s) t :=
  ⟨_, step_busy hbusy hd, .serve hbusy hr⟩

/-- Settles O47: every field of the spec is the one it was, and the wait is one step shorter. -/
theorem inputsAreStableWhileBusy : Obligations.InputsAreStableWhileBusy := by
  intro s hbusy hd hr
  obtain ⟨t, hstep, hserved⟩ := step_servedHarmlessly hbusy hd hr
  have hdelay : t.delay + 1 = s.delay := by rw [hserved.delay, passTime_delay]; omega
  refine ⟨t, hstep, ?_⟩
  rw [hserved.eq_withOwnFieldsOf]
  exact ⟨hbusy, hdelay, rfl, rfl, rfl, rfl, rfl, rfl, rfl, rfl, rfl⟩

/-! ### Accesses -/

/-- What an access answers depends neither on the coming lines nor on the delay. -/
theorem accessReply_withPort_withDelay (s : State) (lines : List HostLine) (d : Nat) (op : HostOp) :
    accessReply { s with port := lines, delay := d } op = accessReply s op := by cases op <;> rfl

/-- An access that answers is a read, and a read changes nothing (R57). -/
theorem accessEffect_of_accessReply {s : State} {op : HostOp} {r : Reply} (h : accessReply s op = some r) :
    accessEffect s op = s := by
  cases op with
  | rd k => rfl
  | wr k v => cases h
  | rin i => rfl
  | win i v => cases h
  | rout i => rfl

/-- While BUSY with some delay left the step serves the oldest line. -/
theorem step_line_busy {s : State} {l : HostLine} {rest : List HostLine} (hbusy : s.phase = .busy) (hd : s.delay ≠ 0)
    (hp : s.port = l :: rest) : step s = .next (serveLine { s with port := rest, delay := s.delay - 1 } l) := by
  rw [step_busy hbusy hd, serve_cons (s := passTime s) hp]
  rfl

/-- The whole next state after an access while BUSY. -/
theorem step_access_busy {s : State} {op : HostOp} {rest : List HostLine} (hbusy : s.phase = .busy) (hd : s.delay ≠ 0)
    (hp : s.port = .access op :: rest) :
    step s = .next { s with
      port := rest, delay := s.delay - 1, replies := (accessReply s op).toList ++ s.replies, fresh := s.fresh + 1 } := by
  rw [step_line_busy hbusy hd hp, serveLine,
    serveAccess_busy (s := { s with port := rest, delay := s.delay - 1 }) hbusy, accessReply_withPort_withDelay]

/-- The whole next state after a read in either phase, when the engine is not due. -/
theorem step_read {s : State} {op : HostOp} {r : Reply} {rest : List HostLine} (h : hostDue s)
    (hp : s.port = .access op :: rest) (hr : accessReply s op = some r) :
    ∃ d, step s = .next { s with port := rest, replies := r :: s.replies, delay := d, fresh := s.fresh + 1 } := by
  obtain ⟨d, hd⟩ := step_line h hp
  have hr' : accessReply { s with port := rest, delay := d } op = some r :=
    (accessReply_withPort_withDelay s rest d op).trans hr
  refine ⟨d, ?_⟩
  rw [hd, serveLine, serveAccess, accessEffect_of_accessReply hr', hr']
  rfl

/-- Settles O41: a write has no effect while BUSY and never answers. -/
theorem writesWhileBusyAreLost : Obligations.WritesWhileBusyAreLost := by
  rintro s op rest hbusy hd (⟨k, v, rfl⟩ | ⟨i, v, rfl⟩) hp
  · exact ⟨_, step_access_busy hbusy hd hp⟩
  · exact ⟨_, step_access_busy hbusy hd hp⟩

/-- Settles O42: each of the three reads answers one value. -/
theorem readsHaveNoSideEffect : Obligations.ReadsHaveNoSideEffect := by
  intro s op rest h hop hp
  have hr : ∃ r, accessReply s op = some r := by
    rcases hop with ⟨k, rfl⟩ | ⟨i, rfl⟩ | ⟨i, rfl⟩ <;> exact ⟨_, rfl⟩
  obtain ⟨r, hr⟩ := hr
  obtain ⟨d, hd⟩ := step_read h hp hr
  exact ⟨r, d, _, hd⟩

/-! ### Every step answers (R65, R200) -/

/-- Settles O56: the host's service is total, and so is the engine step (the hash port answers, U6, log entry 2). -/
theorem noStepStops : Obligations.NoStepStops := by
  intro s
  cases hs : s.phase with
  | idle => exact ⟨_, step_idle hs⟩
  | busy =>
    by_cases hd : s.delay = 0
    · rw [step_engine hs hd]
      exact engineStep_next s
    · exact ⟨_, step_busy hs hd⟩

end Sys2Proof.Machine
end

section
/-! SUPPORT. The legal words (spec/30_encoding.md R81 to R92): what the decoder accepts are the words of the well-formed
commands, and what the assembler accepts. -/

namespace Sys2Proof

/-! ### What the decoder accepts (R91) -/

theorem requirePad0_eq_ok {pad : Bool} {i j : Instr} (h : requirePad0 pad i = .ok j) : pad = false ∧ i = j := by
  cases pad with
  | true => cases h
  | false => exact ⟨rfl, Except.ok.inj h⟩

theorem oneAlphabet_eq_ok {accepted asel : BitVec 2} {pad : Bool} {i j : Instr}
    (h : oneAlphabet accepted asel pad i = .ok j) : asel = accepted ∧ pad = false ∧ i = j := by
  unfold oneAlphabet at h
  split_ifs at h with ha
  exact ⟨ha, requirePad0_eq_ok h⟩

theorem base32Alphabet_eq_ok {asel : BitVec 2} {k : ASel → Except Reject Instr} {j : Instr}
    (h : base32Alphabet asel k = .ok j) : ∃ a : ASel, a.field = asel ∧ k a = .ok j := by
  unfold base32Alphabet at h
  split at h
  · exact ⟨_, ASel.field_of_ofField ‹_›, h⟩
  · cases h

theorem base58Alphabet_eq_ok {asel : BitVec 2} {pad : Bool} {mk : ASel → Instr} {j : Instr}
    (h : base58Alphabet asel pad mk = .ok j) :
    ∃ a : ASel, a.field = asel ∧ a.base58 = true ∧ pad = false ∧ mk a = j := by
  unfold base58Alphabet at h
  split at h
  · split_ifs at h with ha
    exact ⟨_, ASel.field_of_ofField ‹_›, ha, requirePad0_eq_ok h⟩
  · cases h

/-- The command the case on OP gives is well formed and has the fields it was read from (R91). -/
theorem fields_of_decodeOp {op : Nat} {asel : BitVec 2} {pad : Bool} {i : Instr} (h : decodeOp op asel pad = .ok i) :
    i.wf = true ∧ i.opcode.toNat = op ∧ i.asel = asel ∧ i.pad = pad := by
  unfold decodeOp at h
  split at h
  case h_1 | h_2 | h_9 | h_10 =>
    obtain ⟨rfl, rfl, rfl⟩ := oneAlphabet_eq_ok h
    exact ⟨rfl, rfl, rfl, rfl⟩
  case h_3 =>
    obtain ⟨a, rfl, ha⟩ := base32Alphabet_eq_ok h
    cases ha
    exact ⟨rfl, rfl, rfl, rfl⟩
  case h_4 =>
    obtain ⟨a, rfl, ha⟩ := base32Alphabet_eq_ok h
    obtain ⟨rfl, rfl⟩ := requirePad0_eq_ok ha
    exact ⟨rfl, rfl, rfl, rfl⟩
  case h_5 | h_6 | h_7 | h_8 =>
    obtain ⟨a, rfl, ha, rfl, rfl⟩ := base58Alphabet_eq_ok h
    exact ⟨ha, rfl, rfl, rfl⟩
  case h_11 => cases h

theorem ofBool_getLsbD_eq_extractLsb' (w : Word) (i : Nat) : BitVec.ofBool (w.getLsbD i) = w.extractLsb' i 1 := by
  ext j hj
  obtain rfl : j = 0 := by omega
  simp

/-- A word is its five fields, side by side (R81). -/
theorem fields_append (w : Word) :
    fieldRsvh w ++ fieldOp w ++ fieldAsel w ++ BitVec.ofBool (fieldPad w) ++ BitVec.ofBool (fieldRsv0 w) = w := by
  simp only [fieldRsvh, fieldOp, fieldAsel, fieldPad, fieldRsv0, ofBool_getLsbD_eq_extractLsb',
    BitVec.extractLsb'_append_extractLsb'_eq_extractLsb']
  exact BitVec.extractLsb'_eq_self

/-- Built from its own OP, ASEL and PAD, a word with zeros in RSVH and RSV0 is itself (R81). -/
theorem wordOf_fields {w : Word} (hrsvh : fieldRsvh w = 0) (hrsv0 : fieldRsv0 w = false) :
    wordOf (fieldOp w) (fieldAsel w) (fieldPad w) = w := by
  have hw := fields_append w
  rw [hrsvh, hrsv0] at hw
  exact hw

/-- The word of a decoded command is the word it was decoded from (R91). -/
theorem encode_of_decode {w : Word} {i : Instr} (h : decode w = .ok i) : i.wf = true ∧ encode i = w := by
  obtain ⟨hrsvh, hrsv0, hd⟩ := decode_eq_ok h
  obtain ⟨hwf, hop, hasel, hpad⟩ := fields_of_decodeOp hd
  refine ⟨hwf, ?_⟩
  rw [encode, BitVec.eq_of_toNat_eq hop, hasel, hpad, wordOf_fields hrsvh hrsv0]

/-- Settles O1: the fields of a word and the command they give determine each other. -/
theorem decodeAndEncodeAgree : Obligations.DecodeAndEncodeAgree :=
  ⟨fun _ => decode_encode, fun _ _ => encode_of_decode⟩

/-- A word decodes to a command just when the command is well formed and the word is its word. -/
theorem decode_eq_ok_iff {w : Word} {i : Instr} : decode w = .ok i ↔ i.wf = true ∧ encode i = w :=
  ⟨encode_of_decode, fun ⟨hwf, hw⟩ => hw ▸ decode_encode hwf⟩

end Sys2Proof

namespace Sys2Proof.Machine

/-! ### The table of the legal words (R86) -/

/-- Every well-formed command has its row. -/
theorem encode_mem_legalTable {i : Instr} (h : i.wf = true) : (encode i, i) ∈ legalTable := by
  cases i with
  | b16enc | b16dec | aload32 | aload58 => decide
  | b32enc a pad => cases a <;> cases pad <;> decide
  | b32dec a => cases a <;> decide
  | b58enc a | b58dec a | b58cenc a | b58cdec a =>
    cases a with
    | hex => cases h
    | std | cus => decide

/-- Every row holds a well-formed command and its word. -/
theorem wf_encode_of_mem_legalTable : ∀ p ∈ legalTable, p.2.wf = true ∧ encode p.2 = p.1 := by decide

theorem mem_legalTable_iff {w : Word} {i : Instr} : (w, i) ∈ legalTable ↔ i.wf = true ∧ encode i = w :=
  ⟨wf_encode_of_mem_legalTable (w, i), fun ⟨hwf, hw⟩ => hw ▸ encode_mem_legalTable hwf⟩

/-- Settles O2: the rows are the well-formed commands with their words, which is what decodes. -/
theorem exactlyTwentyOneLegalWords : Obligations.ExactlyTwentyOneLegalWords :=
  ⟨rfl, fun _ _ => decode_eq_ok_iff.trans mem_legalTable_iff.symm, by decide⟩

/-- Settles O4: the first three words are those of commands, and the fields of the others are not accepted. -/
theorem decoderReadsWordsOfTheSpec : Obligations.DecoderReadsWordsOfTheSpec :=
  ⟨decode_encode (i := .b32enc .cus true) rfl, decode_encode (i := .b58enc .std) rfl,
    decode_encode (i := .b58cdec .cus) rfl, rfl, rfl, rfl, rfl⟩

/-! ### What the assembler accepts (R92) -/

/-- What the assembler accepts: no suffix on an ALOAD command, `.P` on `B32ENC` only, and a legal word. -/
theorem assemble_eq_some {sp : Spelling} {w : Word} (h : assemble sp = some w) :
    (sp.mnemonic.loads = true → sp.alphabet = none ∧ sp.p = false) ∧ (sp.mnemonic ≠ .B32ENC → sp.p = false)
      ∧ sp.word = w ∧ ∃ i, decode w = .ok i := by
  unfold assemble at h
  split_ifs at h with hload hp
  split at h
  · obtain rfl := Option.some.inj h
    exact ⟨by simpa using hload, by simpa [not_imp_comm] using hp, rfl, _, ‹_›⟩
  · cases h

/-- Settles O3: the word is legal, and for each mnemonic the accepted suffixes are those of the table, with `.STD` beside
them for Base-16. -/
theorem assemblerGivesLegalWords : Obligations.AssemblerGivesLegalWords := by
  rintro ⟨m, a, p⟩ w h
  obtain ⟨hload, hp, rfl, i, hi⟩ := assemble_eq_some h
  refine ⟨⟨i, hi⟩, ?_⟩
  cases m with
  | B16ENC | B16DEC =>
    obtain rfl : p = false := hp nofun
    match a with
    | none | some .std => decide
    | some .hex | some .cus => cases hi
  | B32ENC => rcases a with _ | _ | _ | _ <;> cases p <;> decide
  | B32DEC =>
    obtain rfl : p = false := hp nofun
    rcases a with _ | _ | _ | _ <;> decide
  | B58ENC | B58DEC | B58CENC | B58CDEC =>
    obtain rfl : p = false := hp nofun
    match a with
    | none | some .std | some .cus => decide
    | some .hex => cases hi
  | ALOAD32 | ALOAD58 =>
    obtain ⟨rfl, rfl⟩ : a = none ∧ p = false := hload rfl
    decide

end Sys2Proof.Machine
end

section
/-! SUPPORT. The pseudo-lines (spec/30_encoding.md R94): `WAIT` ends when the block is IDLE (spec/70_reset_and_hazards.md
R244), and `LDIN` loads a sequence (spec/20_memory.md R57, spec/70_reset_and_hazards.md R238). -/

namespace Sys2Proof.Machine

theorem stepN_one {s t : State} (h : step s = .next t) : stepN 1 s = .next t := stepN_succ h 0

/-! ### WAIT -/

theorem statusReg_bit0 (s : State) : (statusReg s).getLsbD 0 = statusBusy s := getLsbD_statusReg s 0

theorem statusBusy_idle {s : State} (h : s.phase = .idle) : statusBusy s = false := by simp [statusBusy, h]

theorem statusBusy_busy {s : State} (h : s.phase = .busy) : statusBusy s = true := by simp [statusBusy, h]

/-- While IDLE a WAIT is one STATUS read. -/
theorem step_wait_idle {s : State} {rest : List HostLine} (h : s.phase = .idle) (hp : s.port = .wait :: rest) :
    step s = .next { s with port := rest, replies := .reg (statusReg s) :: s.replies, fresh := s.fresh + 1 } := by
  rw [step_line_idle h hp, serveLine, statusBusy_idle (s := { s with port := rest }) h]
  rfl

/-- While BUSY with some delay left a WAIT is one STATUS read, and stays. -/
theorem step_wait_busy {s : State} {rest : List HostLine} (h : s.phase = .busy) (hd : s.delay ≠ 0)
    (hp : s.port = .wait :: rest) :
    step s = .next { s with
      delay := s.delay - 1, replies := .reg (statusReg s) :: s.replies, fresh := s.fresh + 1 } := by
  rw [step_line_busy h hd hp, serveLine, statusBusy_busy (s := { s with port := rest, delay := s.delay - 1 }) h, ← hp]
  rfl

/-- The WAIT at the head of the queue of `s` has ended in `t`: it read the STATUS of `s` while BUSY `n` times, and then
that of `t` while IDLE (R94). -/
structure WaitEnded (s t : State) (rest : List HostLine) (n : Nat) : Prop where
  phase : t.phase = .idle
  port : t.port = rest
  replies : t.replies = .reg (statusReg t) :: (List.replicate n (.reg (statusReg s)) ++ s.replies)
  busy : 0 < n → s.phase = .busy

/-- From IDLE a WAIT ends with its one read. -/
theorem wait_idle {s : State} {rest : List HostLine} (h : s.phase = .idle) (hp : s.port = .wait :: rest) :
    ∃ t, stepN 1 s = .next t ∧ WaitEnded s t rest 0 :=
  ⟨_, stepN_one (step_wait_idle h hp), h, rfl, rfl, nofun⟩

/-- From BUSY a WAIT ends after the engine step, by induction on the delay. -/
theorem wait_busy {s : State} {rest : List HostLine} (h : s.phase = .busy) (hp : s.port = .wait :: rest) :
    ∃ k t, stepN k s = .next t ∧ WaitEnded s t rest s.delay := by
  induction hd : s.delay generalizing s with
  | zero =>
    obtain ⟨u, hu⟩ := engineStep_next s
    have hend := engineStep_endsKeepingInputs hu
    obtain ⟨t, ht, hw⟩ := wait_idle hend.phase (hend.port.trans hp)
    exact ⟨2, t, by rw [stepN_succ ((step_engine h hd).trans hu), ht],
      hw.phase, hw.port, by rw [hw.replies, hend.replies]; rfl, nofun⟩
  | succ d ih =>
    have hstep := step_wait_busy h (by omega) hp
    obtain ⟨k, t, ht, hw⟩ := ih (s := { s with
      delay := s.delay - 1, replies := .reg (statusReg s) :: s.replies, fresh := s.fresh + 1 }) h hp (by simp [hd])
    refine ⟨k + 1, t, by rw [stepN_succ hstep, ht], hw.phase, hw.port, ?_, fun _ => h⟩
    rw [hw.replies, List.replicate_succ', List.append_assoc]
    rfl

/-- Settles O49: at once from IDLE, and from BUSY after as many reads as the delay. -/
theorem waitEndsWhenIdle : Obligations.WaitEndsWhenIdle := by
  intro s rest hp
  have hends : ∃ k n t, stepN k s = .next t ∧ WaitEnded s t rest n := by
    cases h : s.phase with
    | idle => exact ⟨1, 0, wait_idle h hp⟩
    | busy =>
      obtain ⟨k, ht⟩ := wait_busy h hp
      exact ⟨k, s.delay, ht⟩
  obtain ⟨k, n, t, ht, hw⟩ := hends
  refine ⟨k, n, t, ht, hw.phase, hw.port, hw.replies, ?_, fun hn => ?_⟩
  · rw [statusReg_bit0, statusBusy_idle hw.phase]
  · rw [statusReg_bit0, statusBusy_busy (hw.busy hn)]

/-! ### LDIN -/

/-- The buffer after the units of a sequence are stored from index `i` on. -/
def Memory.writeFrom (m : Memory) (i : Nat) : List Byte → Memory
  | [] => m
  | u :: us => Memory.writeFrom (m.write i u) (i + 1) us

/-- Each unit of the sequence is read back, and every other index reads as before. -/
theorem Memory.read?_writeFrom (us : List Byte) (m : Memory) (i j : Nat) :
    (m.writeFrom i us).read? j = if i ≤ j then us[j - i]?.or (m.read? j) else m.read? j := by
  induction us generalizing m i with
  | nil => simp [writeFrom]
  | cons u us ih =>
    rw [writeFrom, ih, Memory.read?_write]
    rcases Nat.lt_trichotomy i j with hlt | rfl | hgt
    · have hsub : j - i = j - (i + 1) + 1 := by omega
      rw [if_pos (by omega), if_pos hlt.le, if_neg hlt.ne', hsub, List.getElem?_cons_succ]
    · simp
    · simp [show ¬i ≤ j by omega, show ¬i + 1 ≤ j by omega, show j ≠ i by omega]

/-- `s` with the sequence stored in IN from index `i` on, one access counted for each unit, and `rest` as the coming
lines. -/
def State.withUnits (s : State) (i : Nat) (us : List Byte) (rest : List HostLine) : State :=
  { s with inBuf := s.inBuf.writeFrom i us, port := rest, fresh := s.fresh + us.length }

theorem State.withUnits_cons (s : State) (i : Nat) (u : Byte) (us : List Byte) (lines rest : List HostLine) :
    (s.withUnits i [u] lines).withUnits (i + 1) us rest = s.withUnits i (u :: us) rest := by
  simp [State.withUnits, Memory.writeFrom, Nat.add_assoc, Nat.add_comm 1]

/-- The lines that write a sequence below CAP are served one a step while IDLE (R57). -/
theorem stepN_writeUnits {s : State} {us : List Byte} {i : Nat} {rest : List HostLine} (h : s.phase = .idle)
    (hcap : i + us.length ≤ Config.CAP) (hp : s.port = writeUnits i us ++ rest) (k : Nat) :
    stepN (us.length + k) s = stepN k (s.withUnits i us rest) := by
  induction us generalizing s i with
  | nil =>
    obtain rfl : s.port = rest := hp
    rw [List.length_nil, Nat.zero_add]
    rfl
  | cons u us ih =>
    rw [List.length_cons] at hcap ⊢
    have hstep : step s = .next (s.withUnits i [u] (writeUnits (i + 1) us ++ rest)) := by
      rw [step_win_idle h hp, if_pos (by omega)]
      rfl
    rw [Nat.add_right_comm, stepN_succ hstep, ih (s := s.withUnits i [u] _) h (by omega) rfl, State.withUnits_cons]

/-- LDIN of at most CAP units stores them, then sets IN_LEN (R57, R94). -/
theorem stepN_ldin {s : State} {us : List Byte} {rest : List HostLine} (h : s.phase = .idle)
    (hcap : us.length ≤ Config.CAP) (hp : s.port = ldin us ++ rest) :
    ∃ f, stepN (us.length + 1) s =
      .next { s.withUnits 0 us rest with inLen := BitVec.ofNat 32 us.length, fresh := f } := by
  rw [ldin, List.append_assoc] at hp
  have hlen : (BitVec.ofNat 32 us.length).toNat = us.length := toNat_withOutput_outLen hcap s
  have hstep := step_wr_idle (s := s.withUnits 0 us (.access (.wr 3 (BitVec.ofNat 32 us.length)) :: rest)) h rfl
  rw [writeRegIdle_inLen (by omega)] at hstep
  exact ⟨_, (stepN_writeUnits h (by omega) hp 1).trans (stepN_one hstep)⟩

/-- Settles O51: IN_LEN is the length of the sequence and IN holds its units. -/
theorem ldinLoadsTheInput : Obligations.LdinLoadsTheInput := by
  intro s us rest h hcap hp
  have hlen : (BitVec.ofNat 32 us.length).toNat = us.length := toNat_withOutput_outLen hcap s
  obtain ⟨f, ht⟩ := stepN_ldin h hcap hp
  refine ⟨_, ht, input_eq hlen fun i hi => ?_, fun j hj => ?_, h, rfl, rfl, rfl, rfl, rfl, rfl, rfl, rfl⟩
  · simp [inUnit, State.withUnits, Memory.read?_writeFrom, hi]
  · simp [inUnit, State.withUnits, Memory.read?_writeFrom, hj]

end Sys2Proof.Machine
end

section
/-! SUPPORT. The alphabet registry (spec/40_alphabet.md R100 to R107, R111, R112): lookup inverts symbol in a table
without duplicates, the presets are such tables, and ASEL selects one of them or a slot that is valid. -/

namespace Sys2Proof.Machine

/-! ### Lookup (R100, R106, R107) -/

/-- An index that lookup gives is the index of that code. -/
theorem sym_of_idx {A : List Byte} {c : Byte} {k : Nat} (h : idx A c = some k) : sym A k = c := by
  obtain ⟨hk, hc, -⟩ := List.idxOf?_eq_some_iff.1 h
  rw [sym, List.getD_eq_getElem _ _ hk, hc]

/-- Where no code occurs twice, the first index of a symbol is its own. -/
theorem idx_sym {A : List Byte} (hA : A.Nodup) {k : Nat} (hk : k < A.length) : idx A (sym A k) = some k := by
  rw [sym, List.getD_eq_getElem _ _ hk]
  refine List.idxOf?_eq_some_iff.2 ⟨hk, rfl, fun j hj heq => ?_⟩
  exact hj.ne ((hA.getElem_inj_iff (hi := hj.trans hk) (hj := hk)).1 heq)

/-- Settles O11: the first occurrence of a code is its only one. -/
theorem lookupInvertsSymbol : Obligations.LookupInvertsSymbol := by
  rintro n A ⟨rfl, hA⟩
  exact ⟨fun k => idx_sym hA, fun c k h => ⟨idx_lt h, sym_of_idx h⟩, fun c => idx_eq_none⟩

/-- The three ranges of codes that have a hexadecimal value (R107). -/
theorem hexval_eq_some {c : Byte} {k : Nat} : hexval c = some k ↔
    (0x30 ≤ c.toNat ∧ c.toNat ≤ 0x39 ∧ k = c.toNat - 0x30)
      ∨ (0x61 ≤ c.toNat ∧ c.toNat ≤ 0x66 ∧ k = c.toNat - 0x61 + 10)
      ∨ (0x41 ≤ c.toNat ∧ c.toNat ≤ 0x46 ∧ k = c.toNat - 0x41 + 10) := by
  unfold hexval
  split_ifs
  case neg => exact iff_of_false id (by omega)
  all_goals
    rw [Option.some.injEq]
    omega

/-- The lower-case symbols of HEX16 have their own indices as values. -/
theorem hexval_sym : ∀ k < 16, hexval (sym HEX16 k) = some k := by decide

/-- Settles O13: the three ranges are disjoint, and a code with an index in HEX16 is the symbol of that index. -/
theorem hexvalReadsEitherCase : Obligations.HexvalReadsEitherCase := by
  refine fun c => ⟨fun k => hexval_eq_some, fun k h => ?_⟩
  rw [← sym_of_idx h]
  exact hexval_sym k (idx_lt h)

/-! ### The presets (R101 to R104, R112) -/

theorem isAlphabet_HEX16 : IsAlphabet 16 HEX16 := ⟨rfl, by decide⟩
theorem isAlphabet_B32STD : IsAlphabet 32 B32STD := ⟨rfl, by decide⟩
theorem isAlphabet_B32HEX : IsAlphabet 32 B32HEX := ⟨rfl, by decide⟩
theorem isAlphabet_B58STD : IsAlphabet 58 B58STD := ⟨rfl, by decide⟩

theorem padSymbol_notMem_B32STD : padSymbol ∉ B32STD := by decide
theorem padSymbol_notMem_B32HEX : padSymbol ∉ B32HEX := by decide

/-- Settles O12, table by table. -/
theorem presetsAreAlphabets : Obligations.PresetsAreAlphabets :=
  ⟨isAlphabet_HEX16, isAlphabet_B32STD, isAlphabet_B32HEX, isAlphabet_B58STD, padSymbol_notMem_B32STD,
    padSymbol_notMem_B32HEX, by decide⟩

/-! ### Selection (R105, R111) -/

theorem slotAlphabet_of_valid {n : Nat} {slot : Slot n} (h : slot.valid = true) :
    slotAlphabet slot = .ok slot.tab.toList := by simp [slotAlphabet, h]

theorem slotAlphabet_of_empty {n : Nat} {slot : Slot n} (h : slot.valid = false) :
    slotAlphabet slot = .error .config := by simp [slotAlphabet, h]

/-- Settles O14: with ASEL = 2 the alphabet is the one in the slot. -/
theorem aselSelectsTheAlphabet : Obligations.AselSelectsTheAlphabet := fun _ =>
  ⟨rfl, rfl, rfl, slotAlphabet_of_valid, slotAlphabet_of_empty, slotAlphabet_of_valid, slotAlphabet_of_empty⟩

section
variable {s : State} {a : ASel} {e : ErrKind}

/-- A Base-32 command without an alphabet ends with the error of the selection. -/
theorem exec_base32_of_error (h : alpha32 a s = .error e) :
    (∀ pad, exec (.b32enc a pad) s = .next (s.raise e)) ∧ exec (.b32dec a) s = .next (s.raise e) := by
  refine ⟨fun pad => exec_of_codecResult (r := .error e) ?_, exec_of_codecResult (r := .error e) ?_⟩ <;>
    simp only [codecResult, h] <;> rfl

/-- A Base-58 command without an alphabet ends with the error of the selection. -/
theorem exec_base58_of_error (h : alpha58 a s = .error e) :
    exec (.b58enc a) s = .next (s.raise e) ∧ exec (.b58dec a) s = .next (s.raise e)
      ∧ exec (.b58cenc a) s = .next (s.raise e) ∧ exec (.b58cdec a) s = .next (s.raise e) := by
  refine ⟨exec_of_codecResult (r := .error e) ?_, exec_of_codecResult (r := .error e) ?_,
    exec_of_codecResult (r := .error e) ?_, exec_of_codecResult (r := .error e) ?_⟩ <;>
    simp only [codecResult, h] <;> rfl

end

/-- Settles O15: the selection fails before the data operand is used. -/
theorem emptySlotIsConfigError : Obligations.EmptySlotIsConfigError := fun _ =>
  ⟨fun h => exec_base32_of_error (slotAlphabet_of_empty h),
    fun h => exec_base58_of_error (slotAlphabet_of_empty h), rfl⟩

end Sys2Proof.Machine
end

section
/-! SUPPORT. The custom alphabets (spec/40_alphabet.md R108 to R110): which tables load, and that a loaded slot stays
valid until the reset input. -/

namespace Sys2Proof.Machine

/-! ### Loading (R108, R109) -/

/-- A sequence of `n` units is a table of `n` units. -/
theorem exists_toList_eq {n : Nat} {inp : List Byte} (h : inp.length = n) : ∃ tab : Vector Byte n, tab.toList = inp :=
  ⟨⟨inp.toArray, by simpa using h⟩, by simp [Vector.toList]⟩

/-- The checks of ALOAD32 pass. -/
theorem aload32_of_checked {inp : List Byte} (h : inp.length = 32 ∧ inp.Nodup ∧ padSymbol ∉ inp) :
    ∃ tab : Vector Byte 32, tab.toList = inp ∧ aload32 inp = .ok tab := by
  obtain ⟨tab, htab⟩ := exists_toList_eq h.1
  exact ⟨tab, htab, aload32_eq_ok.2 ⟨htab, h.2⟩⟩

/-- A check of ALOAD32 fails. -/
theorem aload32_of_not_checked {inp : List Byte} (h : ¬(inp.length = 32 ∧ inp.Nodup ∧ padSymbol ∉ inp)) :
    aload32 inp = .error .config := by
  cases hr : aload32 inp with
  | ok tab =>
    obtain ⟨rfl, hchecked⟩ := aload32_eq_ok.1 hr
    exact absurd ⟨by simp, hchecked⟩ h
  | error e => rw [aload32_error hr]

/-- The checks of ALOAD58 pass. -/
theorem aload58_of_checked {inp : List Byte} (h : inp.length = 58 ∧ inp.Nodup) :
    ∃ tab : Vector Byte 58, tab.toList = inp ∧ aload58 inp = .ok tab := by
  obtain ⟨tab, htab⟩ := exists_toList_eq h.1
  exact ⟨tab, htab, aload58_eq_ok.2 ⟨htab, h.2⟩⟩

/-- A check of ALOAD58 fails. -/
theorem aload58_of_not_checked {inp : List Byte} (h : ¬(inp.length = 58 ∧ inp.Nodup)) :
    aload58 inp = .error .config := by
  cases hr : aload58 inp with
  | ok tab =>
    obtain ⟨rfl, hchecked⟩ := aload58_eq_ok.1 hr
    exact absurd ⟨by simp, hchecked⟩ h
  | error e => rw [aload58_error hr]

theorem exec_aload32 (s : State) : exec .aload32 s = .next (s.finishLoad32 (aload32 (input s))) := rfl

theorem exec_aload58 (s : State) : exec .aload58 s = .next (s.finishLoad58 (aload58 (input s))) := rfl

/-- Every failed command sets ERRF (R23, R206). -/
theorem statusErrf_raise (e : ErrKind) (s : State) : statusErrf (s.raise e) = true :=
  (statusErrf_iff _).2 ⟨rfl, e.code_ne_zero⟩

/-- Settles O16: the load is the checked table, or CONFIG, and the ends of a command say the rest. -/
theorem aload32LoadsACheckedTable : Obligations.Aload32LoadsACheckedTable := by
  refine ⟨by decide, fun s => ⟨fun h => ?_, fun h => ?_⟩⟩
  · obtain ⟨tab, htab, hload⟩ := aload32_of_checked h
    exact ⟨tab, htab, by rw [exec_aload32, hload]; rfl, rfl, rfl⟩
  · exact ⟨by rw [exec_aload32, aload32_of_not_checked h]; rfl, rfl, statusErrf_raise .config s, rfl⟩

/-- Settles O17: the load is the checked table, or CONFIG, and the ends of a command say the rest. -/
theorem aload58LoadsACheckedTable : Obligations.Aload58LoadsACheckedTable := by
  refine ⟨by decide, fun s => ⟨fun h => ?_, fun h => ?_⟩⟩
  · obtain ⟨tab, htab, hload⟩ := aload58_of_checked h
    exact ⟨tab, htab, by rw [exec_aload58, hload]; rfl, rfl, rfl⟩
  · exact ⟨by rw [exec_aload58, aload58_of_not_checked h]; rfl, rfl, statusErrf_raise .config s, rfl⟩

/-! ### The lifetime of a slot (R110) -/

/-- Every slot that is valid in `s` is valid in `t`. -/
structure KeepsValidSlots (s t : State) : Prop where
  slot32 : s.slot32.valid = true → t.slot32.valid = true
  slot58 : s.slot58.valid = true → t.slot58.valid = true

namespace KeepsValidSlots

/-- What writes neither slot keeps both. -/
theorem of_eq {s t : State} (h32 : t.slot32 = s.slot32) (h58 : t.slot58 = s.slot58) : KeepsValidSlots s t :=
  ⟨fun h => h32 ▸ h, fun h => h58 ▸ h⟩

/-- No slot was emptied. -/
theorem not_emptied {s t : State} (h : KeepsValidSlots s t) :
    ¬((s.slot32.valid = true ∧ t.slot32.valid = false) ∨ (s.slot58.valid = true ∧ t.slot58.valid = false)) := by
  rintro (⟨hs, ht⟩ | ⟨hs, ht⟩)
  · simp [h.slot32 hs] at ht
  · simp [h.slot58 hs] at ht

/-- An ALOAD makes its slot valid; no other end of a command writes a slot (R27). -/
theorem exec {i : Instr} {s t : State} (h : exec i s = .next t) : KeepsValidSlots s t := by
  rcases exec_ends h with ⟨out, -, rfl⟩ | ⟨e, rfl⟩ | ⟨tab, -, -, rfl⟩ | ⟨tab, -, -, rfl⟩
  · exact of_eq rfl rfl
  · exact of_eq rfl rfl
  · exact ⟨fun _ => rfl, id⟩
  · exact ⟨id, fun _ => rfl⟩

theorem engineStep {s t : State} (h : engineStep s = .next t) : KeepsValidSlots s t := by
  rcases engineStep_cases h with ⟨i, -, hi⟩ | rfl
  · exact exec hi
  · exact of_eq rfl rfl

/-- No write of the host reaches a slot (R30). -/
theorem accessEffect (s : State) (op : HostOp) : KeepsValidSlots s (accessEffect s op) := by
  cases op with
  | rd k => exact of_eq rfl rfl
  | wr k v =>
    simp only [Machine.accessEffect, writeReg, writeRegIdle]
    split
    · split
      · exact of_eq rfl rfl
      · split <;> exact of_eq rfl rfl
      · exact of_eq rfl rfl
    · exact of_eq rfl rfl
  | rin i => exact of_eq rfl rfl
  | win i v =>
    simp only [Machine.accessEffect, writeIn]
    split
    · split <;> exact of_eq rfl rfl
    · exact of_eq rfl rfl
  | rout i => exact of_eq rfl rfl

theorem serveAccess (s : State) (op : HostOp) : KeepsValidSlots s (serveAccess s op) :=
  ⟨(accessEffect s op).slot32, (accessEffect s op).slot58⟩

/-- The slots do not depend on the host's coming lines. -/
theorem withPort {s t : State} {lines : List HostLine} (h : KeepsValidSlots { s with port := lines } t) :
    KeepsValidSlots s t := ⟨h.slot32, h.slot58⟩

theorem serveLine (s : State) {l : HostLine} (hl : l ≠ .reset) : KeepsValidSlots s (serveLine s l) := by
  cases l with
  | access op => exact serveAccess s op
  | wait =>
    simp only [Machine.serveLine]
    split
    · exact withPort (serveAccess _ _)
    · exact serveAccess s _
  | rdout => exact withPort (serveAccess _ _)
  | reset => exact absurd rfl hl

/-- The host's service keeps the slots valid, unless the line is the reset input. -/
theorem serve (s : State) : KeepsValidSlots s (serve s)
    ∨ ∃ rest, s.port = .reset :: rest ∧ serve s = resetInput { s with port := rest } := by
  cases hp : s.port with
  | nil => rw [serve_nil hp]; exact .inl (of_eq rfl rfl)
  | cons l rest =>
    rw [serve_cons hp]
    by_cases hl : l = .reset
    · subst hl
      exact .inr ⟨rest, rfl, rfl⟩
    · exact .inl (withPort (serveLine _ hl))

end KeepsValidSlots

/-- A step keeps the slots valid, or it serves the reset input. The reset clears the delay too, so that a step of
waiting before it leaves no trace. -/
theorem step_keepsValidSlots {s t : State} (h : step s = .next t) : KeepsValidSlots s t
    ∨ hostDue s ∧ ∃ rest, s.port = .reset :: rest ∧ t = resetInput { s with port := rest } := by
  rcases step_cases h with ⟨hidle, rfl⟩ | ⟨-, hd, rfl⟩ | ⟨-, -, he⟩
  · exact (KeepsValidSlots.serve s).imp_right fun hreset => ⟨.inl hidle, hreset⟩
  · rcases KeepsValidSlots.serve (passTime s) with ⟨h32, h58⟩ | hreset
    · exact .inl ⟨h32, h58⟩
    · exact .inr ⟨.inr hd, hreset⟩
  · exact .inl (.engineStep he)

/-- Settles O18: a step that serves no reset leaves every valid slot valid. -/
theorem onlyResetEmptiesASlot : Obligations.OnlyResetEmptiesASlot := fun _ _ h hemptied =>
  (step_keepsValidSlots h).resolve_left fun hkept => hkept.not_emptied hemptied

end Sys2Proof.Machine
end

section
/-! SUPPORT. The Base-16 nibble-mapper (spec/41_base16.md R120 to R122): both commands are described by the nibbles of a
byte sequence. B16ENC writes the symbol of each, B16DEC puts the looked-up values together again. -/

namespace Sys2Proof.Machine

/-! ### Nibbles -/

/-- The nibbles of a byte sequence, the high nibble of a byte first. -/
def nibbles : List Byte → List Nat
  | [] => []
  | b :: bs => b.toNat / 16 :: b.toNat % 16 :: nibbles bs

theorem lt_of_mem_nibbles {b : List Byte} : ∀ k ∈ nibbles b, k < 16 := by
  induction b with
  | nil => simp [nibbles]
  | cons b bs ih =>
    have hb : b.toNat < 256 := b.isLt
    simp only [nibbles, List.forall_mem_cons]
    exact ⟨by omega, by omega, ih⟩

/-- The nibbles `2j` and `2j + 1` are those of byte `j`. -/
theorem getElem?_nibbles {bs : List Byte} {j : Nat} {b : Byte} (h : bs[j]? = some b) :
    (nibbles bs)[2 * j]? = some (b.toNat / 16) ∧ (nibbles bs)[2 * j + 1]? = some (b.toNat % 16) := by
  induction bs generalizing j with
  | nil => simp at h
  | cons b' bs ih =>
    cases j with
    | zero =>
      obtain rfl : b' = b := by simpa using h
      exact ⟨rfl, rfl⟩
    | succ j => exact ih (by simpa using h)

/-- Taking the nibbles in pairs gives the bytes back. -/
theorem nibblePairs_nibbles (b : List Byte) : nibblePairs (nibbles b) = b := by
  induction b with
  | nil => rfl
  | cons b bs ih =>
    have hb : BitVec.ofNat 8 (16 * (b.toNat / 16) + b.toNat % 16) = b := by
      rw [Nat.div_add_mod, BitVec.ofNat_toNat, BitVec.setWidth_eq]
    rw [nibbles, nibblePairs, hb, ih]

/-- An even number of values below 16 are the nibbles of the bytes they make in pairs. -/
theorem nibbles_nibblePairs : ∀ {g : List Nat}, g.length % 2 = 0 → (∀ k ∈ g, k < 16) → nibbles (nibblePairs g) = g
  | [], _, _ => rfl
  | [_], heven, _ => by simp at heven
  | hi :: lo :: g, heven, hlt => by
    simp only [List.forall_mem_cons] at hlt
    obtain ⟨hhi, hlo, hg⟩ := hlt
    have hbyte : (BitVec.ofNat 8 (16 * hi + lo)).toNat = 16 * hi + lo := by
      rw [BitVec.toNat_ofNat]; omega
    have hrest : g.length % 2 = 0 := by
      simp only [List.length_cons] at heven
      omega
    rw [nibblePairs, nibbles, hbyte, nibbles_nibblePairs hrest hg]
    congr 2 <;> omega

/-- Byte `j` is made of the values `2j` and `2j + 1`. -/
theorem getElem?_nibblePairs {g : List Nat} {j hi lo : Nat} (hhi : g[2 * j]? = some hi)
    (hlo : g[2 * j + 1]? = some lo) : (nibblePairs g)[j]? = some (BitVec.ofNat 8 (16 * hi + lo)) := by
  induction g using nibblePairs.induct generalizing j with
  | case1 a b g ih =>
    cases j with
    | zero =>
      obtain rfl : a = hi := by simpa using hhi
      obtain rfl : b = lo := by simpa using hlo
      rfl
    | succ j => exact ih (by simpa [Nat.mul_succ] using hhi) (by simpa [Nat.mul_succ] using hlo)
  | case2 g hshort =>
    match g with
    | [] => simp at hhi
    | [_] => simp at hlo
    | a :: b :: g => exact absurd rfl (hshort a b g)

/-! ### B16ENC (R120) -/

/-- The two symbols of a byte are those of its nibbles. -/
theorem hexPair_eq (b : Byte) : hexPair b = [sym HEX16 (b.toNat / 16), sym HEX16 (b.toNat % 16)] := by
  have hb : b.toNat < 256 := b.isLt
  have hhi : (b.extractLsb' 4 4).toNat = b.toNat / 16 := by
    rw [BitVec.extractLsb'_toNat, Nat.shiftRight_eq_div_pow]; omega
  have hlo : (b.extractLsb' 0 4).toNat = b.toNat % 16 := by
    rw [BitVec.extractLsb'_toNat, Nat.shiftRight_zero]
  rw [hexPair, hhi, hlo]

/-- The hex string holds the symbol of every nibble. -/
theorem hexString_eq_map (b : List Byte) : hexString b = (nibbles b).map (sym HEX16) := by
  induction b with
  | nil => rfl
  | cons b bs ih =>
    rw [hexString] at ih
    rw [hexString, List.flatMap_cons, ih, hexPair_eq]
    rfl

theorem sym_HEX16_mem {k : Nat} (hk : k < 16) : sym HEX16 k ∈ HEX16 := by
  rw [sym, List.getD_eq_getElem _ _ hk]
  exact List.getElem_mem _

theorem mem_HEX16_of_mem_hexString {b : List Byte} {c : Byte} (h : c ∈ hexString b) : c ∈ HEX16 := by
  rw [hexString_eq_map] at h
  obtain ⟨k, hk, rfl⟩ := List.mem_map.1 h
  exact sym_HEX16_mem (lt_of_mem_nibbles k hk)

theorem b16enc_of_le {cap : Nat} {b : List Byte} (h : 2 * b.length ≤ cap) : b16enc cap b = .ok (hexString b) :=
  if_neg (Nat.not_lt.2 h)

theorem b16enc_of_lt {cap : Nat} {b : List Byte} (h : cap < 2 * b.length) : b16enc cap b = .error .capacity :=
  if_pos h

/-- A command that ends with an output leaves ERRF clear (R23). -/
@[simp] theorem statusErrf_withOutput (out : List Byte) (s : State) : statusErrf (s.withOutput out) = false := rfl

theorem exec_b16enc (s : State) : exec .b16enc s = .next (s.finish (b16enc Config.CAP (input s))) := rfl

/-- Settles O19: the hex string holds the symbols of the nibbles, where its length meets CAP. -/
theorem b16encMapsNibbles : Obligations.B16encMapsNibbles := by
  refine ⟨by decide, fun s => ⟨fun hcap => ?_, fun hcap => ?_⟩⟩
  · refine ⟨hexString (input s), length_hexString _, fun j b hb => ?_, ?_, statusErrf_withOutput _ s⟩
    · obtain ⟨hhi, hlo⟩ := getElem?_nibbles hb
      simp [hexString_eq_map, hhi, hlo]
    · rw [exec_b16enc, b16enc_of_le hcap, State.finish_ok]
  · exact ⟨by rw [exec_b16enc, b16enc_of_lt hcap, State.finish_error], rfl⟩

/-! ### B16DEC (R121) -/

/-- The values of a sequence that is looked up are the values of its codes, place by place. -/
theorem exists_getElem?_of_lookupAll {f : Byte → Option Nat} {s : List Byte} {g : List Nat} (h : lookupAll f s = some g)
    {i : Nat} (hi : i < s.length) : ∃ c k, s[i]? = some c ∧ f c = some k ∧ g[i]? = some k := by
  have hlen : i < g.length := lookupAll_length h ▸ hi
  exact ⟨s[i], g[i], List.getElem?_eq_getElem hi, (lookupAll_eq_some.1 h).get hi hlen, List.getElem?_eq_getElem hlen⟩

/-- B16DEC accepts the strings of even length whose codes all have a value. -/
theorem b16dec_eq_ok {s b : List Byte} :
    b16dec s = .ok b ↔ s.length % 2 = 0 ∧ ∃ g, lookupAll hexval s = some g ∧ nibblePairs g = b := by
  unfold b16dec
  split_ifs with hodd
  · exact iff_of_false nofun fun h => by omega
  · have heven : s.length % 2 = 0 := by omega
    cases lookupAll hexval s with
    | none => exact iff_of_false nofun fun ⟨_, _, hg, _⟩ => nomatch hg
    | some g => simp [heven]

/-- FORMAT is the only error of B16DEC, which it gives on an odd length or a code without a value. -/
theorem b16dec_of_malformed {s : List Byte} (h : s.length % 2 = 1 ∨ ∃ c ∈ s, hexval c = none) :
    b16dec s = .error .format := by
  unfold b16dec
  split_ifs with hodd
  · rfl
  · rw [lookupAll_eq_none.2 (h.resolve_left hodd)]

theorem exec_b16dec (s : State) : exec .b16dec s = .next (s.finish (b16dec (input s))) := rfl

/-- Settles O20: the values looked up are put together in pairs. -/
theorem b16decReadsNibbles : Obligations.B16decReadsNibbles := by
  refine ⟨by decide, fun s => ⟨fun heven hall => ?_, fun h => ?_⟩⟩
  · cases hg : lookupAll hexval (input s) with
    | none =>
      obtain ⟨c, hc, hnone⟩ := lookupAll_eq_none.1 hg
      exact absurd hnone (hall c hc)
    | some g =>
      have hlen : (nibblePairs g).length = (input s).length / 2 := by
        rw [length_nibblePairs, lookupAll_length hg]
      refine ⟨nibblePairs g, hlen, fun j hj => ?_, ?_, statusErrf_withOutput _ s⟩
      · obtain ⟨c, hi, hc, hhi, hghi⟩ := exists_getElem?_of_lookupAll hg (i := 2 * j) (by omega)
        obtain ⟨d, lo, hd, hlo, hglo⟩ := exists_getElem?_of_lookupAll hg (i := 2 * j + 1) (by omega)
        exact ⟨c, d, hi, lo, hc, hd, hhi, hlo, getElem?_nibblePairs hghi hglo⟩
      · rw [exec_b16dec, b16dec_eq_ok.2 ⟨heven, g, hg, rfl⟩, State.finish_ok]
  · exact ⟨by rw [exec_b16dec, b16dec_of_malformed h, State.finish_error], rfl, statusErrf_raise .format s⟩

/-! ### The round trip (R122) -/

/-- Every hex string decodes to its bytes. -/
theorem b16dec_hexString (b : List Byte) : b16dec (hexString b) = .ok b := by
  have hlookup : lookupAll hexval (hexString b) = some (nibbles b) := by
    rw [hexString_eq_map]
    exact lookupAll_map fun k hk => hexval_sym k (lt_of_mem_nibbles k hk)
  exact b16dec_eq_ok.2 ⟨by rw [length_hexString]; omega, _, hlookup, nibblePairs_nibbles b⟩

theorem sym_HEX16_digit : ∀ k < 10, sym HEX16 k = BitVec.ofNat 8 (k + 0x30) := by decide

theorem sym_HEX16_letter : ∀ k < 6, sym HEX16 (k + 10) = BitVec.ofNat 8 (k + 0x61) := by decide

/-- The symbol of a code's value is the code in lower case (R107). -/
theorem sym_of_hexval {c : Byte} {k : Nat} (h : hexval c = some k) : sym HEX16 k = lowerHex c := by
  refine BitVec.eq_of_toNat_eq ?_
  rcases hexval_eq_some.1 h with ⟨hlow, hhigh, rfl⟩ | ⟨hlow, hhigh, rfl⟩ | ⟨hlow, hhigh, rfl⟩
  · rw [sym_HEX16_digit _ (by omega), lowerHex, if_neg (by omega), BitVec.toNat_ofNat]
    omega
  · rw [sym_HEX16_letter _ (by omega), lowerHex, if_neg (by omega), BitVec.toNat_ofNat]
    omega
  · have hcase : (0x20 : Byte).toNat = 0x20 := rfl
    rw [sym_HEX16_letter _ (by omega), lowerHex, if_pos ⟨hlow, hhigh⟩, BitVec.toNat_ofNat, BitVec.toNat_add, hcase]
    omega

/-- The symbols of the values looked up are the string in lower case. -/
theorem map_sym_of_forall₂_hexval {s : List Byte} {g : List Nat} (h : List.Forall₂ (fun c k => hexval c = some k) s g) :
    g.map (sym HEX16) = s.map lowerHex := by
  induction h with
  | nil => rfl
  | cons hc _ ih => rw [List.map_cons, List.map_cons, sym_of_hexval hc, ih]

/-- Encoding what a string decodes to gives the string in lower case. -/
theorem hexString_of_b16dec {s b : List Byte} (h : b16dec s = .ok b) : hexString b = s.map lowerHex := by
  obtain ⟨heven, g, hg, rfl⟩ := b16dec_eq_ok.1 h
  have hnibbles : nibbles (nibblePairs g) = g :=
    nibbles_nibblePairs (lookupAll_length hg ▸ heven) (lookupAll_bound hg fun _ _ => hexval_lt)
  rw [hexString_eq_map, hnibbles, map_sym_of_forall₂_hexval (lookupAll_eq_some.1 hg)]

/-- Settles O21: an encoded string decodes to its bytes, and an accepted string's bytes encode to its lower case. -/
theorem b16RoundTrip : Obligations.B16RoundTrip := by
  refine ⟨fun cap b hcap => ?_, fun s b h cap hcap => ?_⟩
  · exact ⟨_, b16enc_of_le hcap, length_hexString b, b16dec_hexString b, fun c => mem_HEX16_of_mem_hexString⟩
  · have hstring := hexString_of_b16dec h
    have hlen : 2 * b.length = s.length := by
      rw [← length_hexString, hstring, List.length_map]
    rw [b16enc_of_le (hlen.trans_le hcap), hstring]

end Sys2Proof.Machine
end

section
/-! SUPPORT. The Base-32 packer and unpacker (spec/42_base32.md R130 to R135): both commands are described by the value
of a bit stream. The bits of a byte sequence, zero-filled, and those of its 5-bit groups have the same value, so the
arithmetic forms and the round trip are divisions by powers of 2. -/

namespace Sys2Proof.Machine

/-! ### The value of a bit stream (R130) -/

/-- The value of the first `w` bits of a stream, the first the most significant (R130). -/
def streamValue (f : Nat → Bool) : Nat → Nat
  | 0 => 0
  | w + 1 => 2 * streamValue f w + (f w).toNat

@[simp] theorem streamValue_zero (f : Nat → Bool) : streamValue f 0 = 0 := rfl

theorem streamValue_succ (f : Nat → Bool) (w : Nat) :
    streamValue f (w + 1) = 2 * streamValue f w + (f w).toNat := rfl

theorem streamValue_congr {f f' : Nat → Bool} {w : Nat} (h : ∀ i < w, f i = f' i) :
    streamValue f w = streamValue f' w := by
  induction w with
  | zero => rfl
  | succ w ih => rw [streamValue_succ, streamValue_succ, h w w.lt_succ_self, ih fun i hi => h i (by omega)]

theorem streamValue_lt (f : Nat → Bool) (w : Nat) : streamValue f w < 2 ^ w := by
  induction w with
  | zero => simp
  | succ w ih =>
    have hbit := Bool.toNat_lt (f w)
    rw [streamValue_succ, pow_succ]
    omega

/-- The bits from place `p` on add their own value below that of the bits before. -/
theorem streamValue_add (f : Nat → Bool) (p w : Nat) :
    streamValue f (p + w) = streamValue f p * 2 ^ w + streamValue (fun i => f (p + i)) w := by
  induction w with
  | zero => simp
  | succ w ih => rw [← Nat.add_assoc, streamValue_succ, streamValue_succ, ih]; ring

theorem streamValue_div (f : Nat → Bool) (p w : Nat) : streamValue f (p + w) / 2 ^ w = streamValue f p := by
  rw [streamValue_add, Nat.mul_comm, Nat.mul_add_div (Nat.two_pow_pos w), Nat.div_eq_of_lt (streamValue_lt _ w),
    Nat.add_zero]

theorem streamValue_mod (f : Nat → Bool) (p w : Nat) :
    streamValue f (p + w) % 2 ^ w = streamValue (fun i => f (p + i)) w := by
  rw [streamValue_add, Nat.mul_add_mod', Nat.mod_eq_of_lt (streamValue_lt _ w)]

/-- Zero fill multiplies the value by a power of 2. -/
theorem streamValue_zeroFill {f : Nat → Bool} {p : Nat} (h : ∀ i, p ≤ i → f i = false) (w : Nat) :
    streamValue f (p + w) = streamValue f p * 2 ^ w := by
  induction w with
  | zero => simp
  | succ w ih => rw [← Nat.add_assoc, streamValue_succ, h _ (by omega), ih, Bool.toNat_false]; ring

/-- The low `w` bits of a number, the most significant first, have its value modulo `2 ^ w`. -/
theorem streamValue_testBit (v w : Nat) : streamValue (fun i => v.testBit (w - 1 - i)) w = v % 2 ^ w := by
  induction w generalizing v with
  | zero => simp [Nat.mod_one]
  | succ w ih =>
    have hhigh : streamValue (fun i => v.testBit (w + 1 - 1 - i)) w = v / 2 % 2 ^ w := by
      rw [← ih]
      refine streamValue_congr fun i hi => ?_
      rw [← Nat.testBit_succ]
      congr 1
      omega
    have hlow : (v.testBit (w + 1 - 1 - w)).toNat = v % 2 := by
      rw [Nat.toNat_testBit, Nat.add_sub_cancel, Nat.sub_self, pow_zero, Nat.div_one]
    rw [streamValue_succ, hhigh, hlow, pow_succ', Nat.mod_mul]
    omega

/-! ### The stream of a byte sequence (R130, R131) -/

/-- Beyond the end of the sequence the stream is zero (R130). -/
theorem bit_eq_false {b : List Byte} {t : Nat} (h : 8 * b.length ≤ t) : bit b t = false := by
  rw [bit, List.getD_eq_default _ _ (by omega)]
  exact BitVec.getLsbD_zero

theorem bit_append_left (b c : List Byte) {t : Nat} (h : t < 8 * b.length) : bit (b ++ c) t = bit b t := by
  rw [bit, bit, List.getD_append _ _ _ _ (by omega)]

theorem bit_append_right (b c : List Byte) (t : Nat) : bit (b ++ c) (8 * b.length + t) = bit c t := by
  rw [bit, bit, List.getD_append_right _ _ _ _ (by omega)]
  congr 2 <;> omega

/-- The stream of one byte has the byte's value. -/
theorem streamValue_bit_singleton (x : Byte) : streamValue (bit [x]) 8 = x.toNat := by
  rw [streamValue_congr (f' := fun i => x.toNat.testBit (8 - 1 - i)), streamValue_testBit]
  · exact Nat.mod_eq_of_lt x.isLt
  · intro i hi
    rw [bit, BitVec.testBit_toNat, Nat.div_eq_of_lt hi, Nat.mod_eq_of_lt hi]
    rfl

/-- The stream is the binary expansion of the sequence's value (R130). -/
theorem natOf_eq_streamValue (b : List Byte) : natOf b = streamValue (bit b) (8 * b.length) := by
  induction b using List.reverseRecOn with
  | nil => rfl
  | append_singleton b x ih =>
    rw [natOf_append_singleton, List.length_append, List.length_singleton, Nat.mul_add, streamValue_add,
      streamValue_congr fun i => bit_append_left b [x], ← ih]
    simp only [bit_append_right]
    rw [Nat.mul_one, streamValue_bit_singleton]
    rfl

theorem group5_eq_streamValue (b : List Byte) (k : Nat) :
    group5 b k = streamValue (fun i => bit b (5 * k + i)) 5 := by
  simp only [group5, streamValue, Nat.add_zero]
  ring

theorem group5_lt (b : List Byte) (k : Nat) : group5 b k < 32 := by
  rw [group5_eq_streamValue]
  exact streamValue_lt _ 5

/-- The data symbols have room for every bit, and less than a symbol to spare (R131). -/
theorem dataSymbols_bounds (n : Nat) : 8 * n ≤ 5 * dataSymbols n ∧ 5 * dataSymbols n < 8 * n + 5 := by
  unfold dataSymbols; omega

/-- The zero-filled stream has the value `v` of R131. -/
theorem streamValue_dataSymbols (b : List Byte) :
    streamValue (bit b) (5 * dataSymbols b.length) = natOf b * 2 ^ (5 * dataSymbols b.length - 8 * b.length) := by
  have hroom := (dataSymbols_bounds b.length).1
  rw [natOf_eq_streamValue, ← streamValue_zeroFill fun _ => bit_eq_false, Nat.add_sub_cancel' hroom]

/-- A group is a base-32 digit of the zero-filled value (R131). -/
theorem group5_eq_div_mod {b : List Byte} {k : Nat} (hk : k < dataSymbols b.length) :
    group5 b k = natOf b * 2 ^ (5 * dataSymbols b.length - 8 * b.length)
      / 32 ^ (dataSymbols b.length - 1 - k) % 32 := by
  have hsplit : 5 * dataSymbols b.length = 5 * k + 5 + 5 * (dataSymbols b.length - 1 - k) := by omega
  have hpow : 32 ^ (dataSymbols b.length - 1 - k) = 2 ^ (5 * (dataSymbols b.length - 1 - k)) := by
    rw [pow_mul]
    rfl
  have hmod := streamValue_mod (bit b) (5 * k) 5
  rw [← streamValue_dataSymbols, hpow, hsplit, streamValue_div, group5_eq_streamValue]
  exact hmod.symm

/-! ### The stream of a sequence of indices (R130, R133) -/

/-- One more digit at the end of a big-endian base-32 number. -/
theorem ofDigits_reverse_concat (g : List Nat) (k : Nat) :
    Nat.ofDigits 32 (g ++ [k]).reverse = Nat.ofDigits 32 g.reverse * 32 + k := by
  rw [List.reverse_append, List.reverse_singleton, List.singleton_append, Nat.ofDigits_cons, Nat.mul_comm]
  simp [Nat.add_comm]

theorem sbit_append_left (g h : List Nat) {t : Nat} (ht : t < 5 * g.length) : sbit (g ++ h) t = sbit g t := by
  rw [sbit, sbit, List.getD_append _ _ _ _ (by omega)]

theorem sbit_append_right (g h : List Nat) (t : Nat) : sbit (g ++ h) (5 * g.length + t) = sbit h t := by
  rw [sbit, sbit, List.getD_append_right _ _ _ _ (by omega)]
  congr 2 <;> omega

/-- The stream of one index has its value. -/
theorem streamValue_sbit_singleton {k : Nat} (hk : k < 32) : streamValue (sbit [k]) 5 = k := by
  rw [streamValue_congr (f' := fun i => k.testBit (5 - 1 - i)), streamValue_testBit]
  · exact Nat.mod_eq_of_lt hk
  · intro i hi
    rw [sbit, Nat.div_eq_of_lt hi, Nat.mod_eq_of_lt hi]
    rfl

/-- The stream of indices is the binary expansion of their base-32 value (R133). -/
theorem ofDigits_eq_streamValue {g : List Nat} (hg : ∀ k ∈ g, k < 32) :
    Nat.ofDigits 32 g.reverse = streamValue (sbit g) (5 * g.length) := by
  induction g using List.reverseRecOn with
  | nil => rfl
  | append_singleton g k ih =>
    rw [List.forall_mem_append, List.forall_mem_singleton] at hg
    obtain ⟨hg, hk⟩ := hg
    rw [ofDigits_reverse_concat, List.length_append, List.length_singleton, Nat.mul_add, streamValue_add,
      streamValue_congr fun i => sbit_append_left g [k], ← ih hg]
    simp only [sbit_append_right]
    rw [Nat.mul_one, streamValue_sbit_singleton hk]
    rfl

theorem toNat_streamByte (g : List Nat) (j : Nat) :
    (streamByte g j).toNat = streamValue (fun i => sbit g (8 * j + i)) 8 := by
  have hsum : ((List.range 8).map fun i => (sbit g (8 * j + i)).toNat * 2 ^ (7 - i)).sum
      = streamValue (fun i => sbit g (8 * j + i)) 8 := by
    simp only [streamValue, List.range_succ, List.range_zero, List.nil_append, List.map_append, List.map_cons,
      List.map_nil, List.sum_append, List.sum_cons, List.sum_nil]
    ring
  rw [streamByte, hsum, BitVec.toNat_ofNat]
  exact Nat.mod_eq_of_lt (streamValue_lt _ 8)

theorem natOf_map_streamByte (g : List Nat) (n : Nat) :
    natOf ((List.range n).map (streamByte g)) = streamValue (sbit g) (8 * n) := by
  induction n with
  | zero => rfl
  | succ n ih =>
    rw [List.range_succ, List.map_append, List.map_singleton, natOf_append_singleton, ih, toNat_streamByte,
      Nat.mul_add, streamValue_add]
    rfl

/-- The whole bytes have the value of the indices without the dropped bits (R133). -/
theorem natOf_streamBytes {g : List Nat} (hg : ∀ k ∈ g, k < 32) :
    natOf (streamBytes g) = Nat.ofDigits 32 g.reverse / 2 ^ (5 * g.length - 8 * (5 * g.length / 8)) := by
  have hsplit : 8 * (5 * g.length / 8) + (5 * g.length - 8 * (5 * g.length / 8)) = 5 * g.length := by omega
  have hdiv := streamValue_div (sbit g) (8 * (5 * g.length / 8)) (5 * g.length - 8 * (5 * g.length / 8))
  rw [hsplit] at hdiv
  rw [streamBytes, natOf_map_streamByte, ofDigits_eq_streamValue hg, hdiv]

/-- Byte sequences of one length and one value are equal. -/
theorem eq_of_natOf_eq {b c : List Byte} (hlen : b.length = c.length) (h : natOf b = natOf c) : b = c := by
  induction b using List.reverseRecOn generalizing c with
  | nil => exact (List.length_eq_zero_iff.1 hlen.symm).symm
  | append_singleton b x ih =>
    obtain rfl | ⟨c, y, rfl⟩ := c.eq_nil_or_concat'
    · simp at hlen
    · have hx : x.toNat < 256 := x.isLt
      have hy : y.toNat < 256 := y.isLt
      rw [natOf_append_singleton, natOf_append_singleton] at h
      rw [ih (by simpa using hlen) (by omega), BitVec.eq_of_toNat_eq (show x.toNat = y.toNat by omega)]

/-! ### The groups of a byte sequence (R131, R135) -/

/-- The indices of the data symbols of a byte sequence (R131). -/
def groups (b : List Byte) : List Nat := (List.range (dataSymbols b.length)).map (group5 b)

@[simp] theorem length_groups (b : List Byte) : (groups b).length = dataSymbols b.length := by simp [groups]

theorem lt_of_mem_groups {b : List Byte} : ∀ k ∈ groups b, k < 32 := by
  intro k hk
  obtain ⟨i, -, rfl⟩ := List.mem_map.1 hk
  exact group5_lt b i

theorem ofDigits_map_group5 (b : List Byte) (m : Nat) :
    Nat.ofDigits 32 ((List.range m).map (group5 b)).reverse = streamValue (bit b) (5 * m) := by
  induction m with
  | zero => rfl
  | succ m ih =>
    rw [List.range_succ, List.map_append, List.map_singleton, ofDigits_reverse_concat, ih, group5_eq_streamValue,
      Nat.mul_add, streamValue_add]
    rfl

/-- Every whole byte of the data symbols is a payload byte (R135). -/
theorem dataSymbols_wholeBytes (n : Nat) : 5 * dataSymbols n / 8 = n := by
  have := dataSymbols_bounds n
  omega

/-- Unpacking the groups gives the bytes back: what is dropped is the zero fill (R135). -/
theorem streamBytes_groups (b : List Byte) : streamBytes (groups b) = b := by
  refine eq_of_natOf_eq (by simp [dataSymbols_wholeBytes]) ?_
  rw [natOf_streamBytes lt_of_mem_groups, length_groups, dataSymbols_wholeBytes, groups, ofDigits_map_group5,
    streamValue_dataSymbols, Nat.mul_div_cancel _ (Nat.two_pow_pos _)]

/-! ### The alphabet of a Base-32 command (R105, R112) -/

/-- A selected Base-32 alphabet has 32 symbols: a slot's table does whatever it holds (R105). -/
theorem alpha32_length {a : ASel} {s : State} {A : List Byte} (h : alpha32 a s = .ok A) : A.length = 32 := by
  cases a with
  | std => cases h; rfl
  | hex => cases h; rfl
  | cus =>
    simp only [alpha32, slotAlphabet] at h
    split at h <;> cases h
    simp

/-- Under the invariant a selected Base-32 table is an alphabet without the padding symbol (R102, R103, R108). -/
theorem State.Inv.alpha32_isAlphabet {a : ASel} {s : State} {A : List Byte} (hs : s.Inv) (h : alpha32 a s = .ok A) :
    IsAlphabet 32 A ∧ padSymbol ∉ A := by
  cases a with
  | std => cases h; exact ⟨isAlphabet_B32STD, padSymbol_notMem_B32STD⟩
  | hex => cases h; exact ⟨isAlphabet_B32HEX, padSymbol_notMem_B32HEX⟩
  | cus =>
    simp only [alpha32, slotAlphabet] at h
    split at h <;> cases h
    next hvalid => exact ⟨hs.slot32_alphabet hvalid, hs.slot32_noPad hvalid⟩

theorem sym_mem {A : List Byte} {k : Nat} (hk : k < A.length) : sym A k ∈ A := by
  rw [sym, List.getD_eq_getElem _ _ hk]
  exact List.getElem_mem _

/-! ### B32ENC (R131, R132) -/

/-- The string holds the symbols of the groups, then the padding. -/
theorem base32String_eq (A : List Byte) (pad : Bool) (b : List Byte) :
    base32String A pad b = (groups b).map (sym A)
      ++ List.replicate (base32Length pad b.length - dataSymbols b.length) padSymbol := by
  rw [groups, List.map_map]
  rfl

theorem base32String_unpadded (A b : List Byte) : base32String A false b = (groups b).map (sym A) := by
  simp [base32String_eq, base32Length]

theorem getElem?_base32String_data {A b : List Byte} {k : Nat} (pad : Bool) (hk : k < dataSymbols b.length) :
    (base32String A pad b)[k]? = some (sym A (group5 b k)) := by
  rw [base32String_eq, List.getElem?_append_left (by simpa using hk)]
  simp [groups, hk]

theorem getElem?_base32String_pad {A b : List Byte} {pad : Bool} {k : Nat} (hk : dataSymbols b.length ≤ k)
    (hlt : k < base32Length pad b.length) : (base32String A pad b)[k]? = some padSymbol := by
  rw [base32String_eq, List.getElem?_append_right (by simpa using hk), List.length_map, length_groups,
    List.getElem?_replicate, if_pos (by omega)]

theorem mem_of_mem_map_sym_groups {A b : List Byte} {c : Byte} (hA : A.length = 32) (h : c ∈ (groups b).map (sym A)) :
    c ∈ A := by
  obtain ⟨k, hk, rfl⟩ := List.mem_map.1 h
  exact sym_mem (hA ▸ lt_of_mem_groups k hk)

section
variable {cap : Nat} {pad : Bool} {b : List Byte}

theorem b32enc_of_le (h : base32Length pad b.length ≤ cap) (A : List Byte) :
    b32enc cap A pad b = .ok (base32String A pad b) := if_neg (Nat.not_lt.2 h)

theorem b32enc_of_lt (h : cap < base32Length pad b.length) (A : List Byte) : b32enc cap A pad b = .error .capacity :=
  if_pos h

/-- B32ENC answers the string, where it fits. -/
theorem b32enc_eq_ok {A out : List Byte} :
    b32enc cap A pad b = .ok out ↔ base32Length pad b.length ≤ cap ∧ base32String A pad b = out := by
  by_cases h : base32Length pad b.length ≤ cap
  · rw [b32enc_of_le h, Except.ok.injEq, and_iff_right h]
  · rw [b32enc_of_lt (by omega)]
    exact iff_of_false nofun fun h' => h h'.1

end

section
variable {a : ASel} {s : State} {A : List Byte}

theorem exec_b32enc (hA : alpha32 a s = .ok A) (pad : Bool) :
    exec (.b32enc a pad) s = .next (s.finish (b32enc Config.CAP A pad (input s))) :=
  exec_of_codecResult (by rw [codecResult, hA]; rfl)

theorem exec_b32enc_of_le {pad : Bool} (hA : alpha32 a s = .ok A)
    (h : base32Length pad (input s).length ≤ Config.CAP) :
    exec (.b32enc a pad) s = .next (s.withOutput (base32String A pad (input s))) := by
  rw [exec_b32enc hA, b32enc_of_le h, State.finish_ok]

theorem exec_b32enc_of_lt {pad : Bool} (hA : alpha32 a s = .ok A)
    (h : Config.CAP < base32Length pad (input s).length) : exec (.b32enc a pad) s = .next (s.raise .capacity) := by
  rw [exec_b32enc hA, b32enc_of_lt h, State.finish_error]

end

/-- Settles O22: a data symbol is that of a base-32 digit of the zero-filled value. -/
theorem b32encPacksFiveBitGroups : Obligations.B32encPacksFiveBitGroups := by
  refine ⟨fun a pad => encode_mem_legalTable rfl, fun a pad s => ⟨?_, ?_⟩⟩
  · rintro rfl hempty
    exact ⟨(exec_base32_of_error (a := .cus) (slotAlphabet_of_empty hempty)).1 pad, rfl⟩
  · rintro A b n m L hA rfl rfl rfl rfl
    refine ⟨fun hcap => ?_, fun hcap => ⟨exec_b32enc_of_lt hA hcap, rfl⟩⟩
    refine ⟨_, length_base32String A pad (input s), fun k hk => ?_, fun k => getElem?_base32String_pad,
      exec_b32enc_of_le hA hcap, statusErrf_withOutput _ s⟩
    rw [getElem?_base32String_data pad hk, group5_eq_div_mod hk]
    rfl

/-- What B32ENC leaves where its string fits, as OUT_LEN and OUT show it. -/
theorem exec_b32enc_output {a : ASel} {s : State} {A : List Byte} {pad : Bool} (hA : alpha32 a s = .ok A)
    (h : base32Length pad (input s).length ≤ Config.CAP) :
    ∃ t, exec (.b32enc a pad) s = .next t ∧ t.err = 0 ∧ t.outLen.toNat = base32Length pad (input s).length
      ∧ ∀ k, dataSymbols (input s).length ≤ k → k < base32Length pad (input s).length →
          t.outBuf.read? k = some padSymbol := by
  have hlen := length_base32String A pad (input s)
  refine ⟨_, exec_b32enc_of_le hA h, rfl, ?_, fun k hk hlt => ?_⟩
  · rw [toNat_withOutput_outLen (hlen.trans_le h), hlen]
  · rw [State.withOutput_outBuf, Memory.read?_ofUnits, getElem?_base32String_pad hk hlt]

/-- The rows of R132 have the lengths of R131, and their fill bits and counts are as R132 says. -/
theorem lengths_of_row {q r m L z : Nat}
    (h : (r, m, L, z) ∈ [(0, 8 * q, 8 * q, 0), (1, 8 * q + 2, 8 * q + 8, 2), (2, 8 * q + 4, 8 * q + 8, 4),
      (3, 8 * q + 5, 8 * q + 8, 1), (4, 8 * q + 7, 8 * q + 8, 3)]) :
    m = base32Length false (5 * q + r) ∧ L = base32Length true (5 * q + r)
      ∧ 5 * m - 8 * (5 * q + r) = z ∧ m % 8 ∉ [1, 3, 6] ∧ L - m ∉ [2, 5, 7] := by
  simp only [List.mem_cons, List.not_mem_nil, or_false, Prod.mk.injEq] at h ⊢
  simp only [base32Length, dataSymbols, if_true, Bool.false_eq_true, if_false]
  rcases h with ⟨rfl, rfl, rfl, rfl⟩ | ⟨rfl, rfl, rfl, rfl⟩ | ⟨rfl, rfl, rfl, rfl⟩ | ⟨rfl, rfl, rfl, rfl⟩
    | ⟨rfl, rfl, rfl, rfl⟩ <;> omega

/-- Settles O23: each row has the lengths of the strings B32ENC leaves. -/
theorem b32encLengths : Obligations.B32encLengths := by
  rintro a s q r m L z ⟨A, hA⟩ hn hrow
  obtain ⟨rfl, rfl, hfill, hm, hL⟩ := lengths_of_row hrow
  rw [← hn] at hfill hm hL ⊢
  refine ⟨hfill, hm, hL, fun hcap => ?_, exec_b32enc_output hA⟩
  obtain ⟨t, ht, herr, hlen, -⟩ := exec_b32enc_output (pad := false) hA hcap
  exact ⟨t, ht, herr, hlen⟩

/-- Settles O27: without PAD the string is the symbols of the groups alone, and fits where the padded one does. -/
theorem b32PaddingOnlyAppends : Obligations.B32PaddingOnlyAppends := by
  intro n A b s hA h
  obtain ⟨hcap, rfl⟩ := b32enc_eq_ok.1 h
  have hle : base32Length false b.length ≤ n := (dataSymbols_le_base32Length true _).trans hcap
  refine ⟨(groups b).map (sym A), _, ?_, base32String_eq A true b, fun c => mem_of_mem_map_sym_groups hA.size⟩
  rw [b32enc_of_le hle, base32String_unpadded]

/-! ### The padding of a string (R133, R134) -/

theorem stripPadding_append_pad (s : List Byte) (e : Nat) :
    stripPadding (s ++ List.replicate e padSymbol) = stripPadding s := by
  induction e with
  | zero => simp
  | succ e ih =>
    rw [List.replicate_succ', ← List.append_assoc, ← ih]
    exact List.rdropWhile_concat_pos _ _ _ (beq_self_eq_true _)

theorem stripPadding_eq_self {s : List Byte} (h : s.getLast? ≠ some padSymbol) : stripPadding s = s := by
  refine List.rdropWhile_eq_self_iff.2 fun hne heq => h ?_
  rw [List.getLast?_eq_getLast_of_ne_nil hne, eq_of_beq heq]

/-- A string is its stripped form followed by padding symbols. -/
theorem exists_eq_stripPadding_append (s : List Byte) : ∃ e, s = stripPadding s ++ List.replicate e padSymbol := by
  have hrun : s.rtakeWhile (· == padSymbol) = List.replicate _ padSymbol :=
    List.eq_replicate_of_mem fun c hc => eq_of_beq (List.mem_rtakeWhile_imp (p := (· == padSymbol)) hc)
  exact ⟨_, hrun ▸ (List.rdropWhile_append_rtakeWhile ..).symm⟩

/-- The whole trailing run is stripped: the stripped form does not end in a padding symbol. -/
theorem getLast?_stripPadding_ne (s : List Byte) : (stripPadding s).getLast? ≠ some padSymbol := by
  intro h
  have hne : stripPadding s ≠ [] := by
    intro hnil
    simp [hnil] at h
  rw [List.getLast?_eq_getLast_of_ne_nil hne, Option.some.injEq] at h
  exact List.rdropWhile_last_not (· == padSymbol) s hne (beq_iff_eq.2 h)

/-- A string over an alphabet without the padding symbol has nothing to strip. -/
theorem stripPadding_of_forall_mem {A s : List Byte} (hpad : padSymbol ∉ A) (h : ∀ c ∈ s, c ∈ A) :
    stripPadding s = s :=
  stripPadding_eq_self fun hlast => hpad (h _ (List.mem_of_getLast? hlast))

/-! ### B32DEC (R133, R134) -/

section
variable {A s : List Byte}

/-- B32DEC unpacks the indices of the symbols before the padding. -/
theorem b32dec_of_lookup {g : List Nat} (h : lookupAll (idx A) (stripPadding s) = some g) :
    b32dec A s = .ok (streamBytes g) := by rw [b32dec, h]

/-- FORMAT is for a symbol before the padding that is foreign to the alphabet. -/
theorem b32dec_of_foreign (h : ∃ c ∈ stripPadding s, c ∉ A) : b32dec A s = .error .format := by
  obtain ⟨c, hc, hA⟩ := h
  rw [b32dec, lookupAll_eq_none.2 ⟨c, hc, idx_eq_none.2 hA⟩]

end

/-- A string over the alphabet is looked up. -/
theorem exists_lookupAll_idx {A s : List Byte} (h : ∀ c ∈ s, c ∈ A) : ∃ g, lookupAll (idx A) s = some g := by
  cases hg : lookupAll (idx A) s with
  | some g => exact ⟨g, rfl⟩
  | none =>
    obtain ⟨c, hc, hnone⟩ := lookupAll_eq_none.1 hg
    exact absurd (h c hc) (idx_eq_none.1 hnone)

theorem exec_b32dec {a : ASel} {s : State} {A : List Byte} (hA : alpha32 a s = .ok A) :
    exec (.b32dec a) s = .next (s.finish (b32dec A (input s))) :=
  exec_of_codecResult (by rw [codecResult, hA]; rfl)

/-- Settles O24: the whole bytes of the indices looked up have the value of R133. -/
theorem b32decUnpacksFiveBitGroups : Obligations.B32decUnpacksFiveBitGroups := by
  refine ⟨fun a => encode_mem_legalTable rfl, fun a s => ⟨?_, fun A hA => ?_⟩⟩
  · rintro rfl hempty
    exact ⟨(exec_base32_of_error (a := .cus) (slotAlphabet_of_empty hempty)).2, rfl⟩
  · obtain ⟨e, he⟩ := exists_eq_stripPadding_append (input s)
    refine ⟨_, e, he, getLast?_stripPadding_ne _, fun hforeign => ?_, fun hall => ?_⟩
    · exact ⟨by rw [exec_b32dec hA, b32dec_of_foreign hforeign, State.finish_error], rfl, statusErrf_raise .format s⟩
    · obtain ⟨g, hg⟩ := exists_lookupAll_idx hall
      have hlen := lookupAll_length hg
      have hlt : ∀ k ∈ g, k < 32 := lookupAll_bound hg fun _ _ h => alpha32_length hA ▸ idx_lt h
      refine ⟨g, streamBytes g, lookupAll_eq_some.1 hg, by rw [length_streamBytes, hlen], ?_, ?_,
        statusErrf_withOutput _ s⟩
      · rw [natOf_streamBytes hlt, length_streamBytes, hlen]
      · rw [exec_b32dec hA, b32dec_of_lookup hg, State.finish_ok]

theorem lookupAll_concat (f : Byte → Option Nat) (s : List Byte) (c : Byte) :
    lookupAll f (s ++ [c]) = (lookupAll f s).bind fun g => (f c).map fun k => g ++ [k] := by
  induction s with
  | nil => rw [List.nil_append, lookupAll_cons]; cases f c <;> rfl
  | cons c' s ih =>
    rw [List.cons_append, lookupAll_cons, lookupAll_cons, ih]
    cases f c' <;> cases lookupAll f s <;> cases f c <;> rfl

/-- A change of the last base-32 digit below bit `d` does not reach the value above it. -/
theorem concat_div_two_pow_congr {j k d : Nat} (v : Nat) (hj : j < 32) (hk : k < 32) (h : j / 2 ^ d = k / 2 ^ d) :
    (v * 32 + j) / 2 ^ d = (v * 32 + k) / 2 ^ d := by
  rcases Nat.le_total d 5 with hd | hd
  · have hsplit : v * 32 = 2 ^ d * (v * 2 ^ (5 - d)) := by
      rw [Nat.mul_left_comm, ← pow_add, Nat.add_sub_cancel' hd]
      rfl
    rw [hsplit, Nat.mul_add_div (Nat.two_pow_pos d), Nat.mul_add_div (Nat.two_pow_pos d), h]
  · have hsplit : 2 ^ d = 32 * 2 ^ (d - 5) := by
      rw [show 32 = 2 ^ 5 from rfl, ← pow_add, Nat.add_sub_cancel' hd]
    rw [hsplit, ← Nat.div_div_eq_div_mul, ← Nat.div_div_eq_div_mul]
    congr 1
    omega

/-- The whole bytes do not see the dropped bits of the last index (R134). -/
theorem streamBytes_concat_congr {g : List Nat} {j k : Nat} (hg : ∀ x ∈ g, x < 32) (hj : j < 32) (hk : k < 32)
    (h : j / 2 ^ (5 * (g.length + 1) % 8) = k / 2 ^ (5 * (g.length + 1) % 8)) :
    streamBytes (g ++ [j]) = streamBytes (g ++ [k]) := by
  have hvalue : ∀ x < 32, natOf (streamBytes (g ++ [x]))
      = (Nat.ofDigits 32 g.reverse * 32 + x) / 2 ^ (5 * (g.length + 1) % 8) := by
    intro x hx
    have hlt : ∀ y ∈ g ++ [x], y < 32 := List.forall_mem_append.2 ⟨hg, List.forall_mem_singleton.2 hx⟩
    rw [natOf_streamBytes hlt, ofDigits_reverse_concat, List.length_append, List.length_singleton,
      Nat.mod_eq_sub_mul_div]
  refine eq_of_natOf_eq (by simp) ?_
  rw [hvalue j hj, hvalue k hk, concat_div_two_pow_congr _ hj hk h]

/-- B32DEC unpacks a last symbol of the alphabet with those before it, if they have indices. -/
theorem b32dec_concat {A : List Byte} {c : Byte} {j : Nat} (hpad : padSymbol ∉ A) (hc : idx A c = some j)
    (t : List Byte) :
    b32dec A (t ++ [c]) = (lookupAll (idx A) t).elim (.error .format) fun g => .ok (streamBytes (g ++ [j])) := by
  have hstrip : stripPadding (t ++ [c]) = t ++ [c] := by
    refine stripPadding_eq_self fun hlast => ?_
    obtain rfl : c = padSymbol := by simpa using hlast
    exact absurd hc (idx_eq_none.2 hpad ▸ nofun)
  rw [b32dec, hstrip, lookupAll_concat, hc]
  cases lookupAll (idx A) t <;> rfl

/-- Settles O25: the padding is stripped, and the last index is seen through its bits above the dropped ones. -/
theorem b32decIgnoresPaddingAndDroppedBits : Obligations.B32decIgnoresPaddingAndDroppedBits := by
  refine ⟨fun A s e => by rw [b32dec, b32dec, stripPadding_append_pad], fun A t c d j k hA hpad hc hd h => ?_⟩
  have hlt : ∀ (x : Byte) (i : Nat), idx A x = some i → i < 32 := fun _ _ hx => hA.size ▸ idx_lt hx
  rw [b32dec_concat hpad hc, b32dec_concat hpad hd]
  cases hg : lookupAll (idx A) t with
  | none => rfl
  | some g =>
    rw [← lookupAll_length hg] at h
    exact congrArg Except.ok (streamBytes_concat_congr (lookupAll_bound hg hlt) (hlt c j hc) (hlt d k hd) h)

/-! ### The round trip (R135) -/

/-- Whatever the padding, the string of a byte sequence decodes to it. -/
theorem b32dec_base32String {A : List Byte} (hA : IsAlphabet 32 A) (hpad : padSymbol ∉ A) (pad : Bool)
    (b : List Byte) : b32dec A (base32String A pad b) = .ok b := by
  have hstrip : stripPadding (base32String A pad b) = (groups b).map (sym A) := by
    rw [base32String_eq, stripPadding_append_pad]
    exact stripPadding_of_forall_mem hpad fun c => mem_of_mem_map_sym_groups hA.size
  have hlookup : lookupAll (idx A) ((groups b).map (sym A)) = some (groups b) :=
    lookupAll_map fun k hk => idx_sym hA.nodup (hA.size ▸ lt_of_mem_groups k hk)
  rw [b32dec_of_lookup (hstrip ▸ hlookup), streamBytes_groups]

/-- A codec command that left an output computed that output. -/
theorem codecResult_of_holdsOutput {i : Instr} {s t : State} {r : Except ErrKind (List Byte)} {out : List Byte}
    (hs : s.Inv) (hr : codecResult i s = some r) (h : exec i s = .next t) (ht : t.HoldsOutput out) : r = .ok out := by
  rw [exec_of_codecResult hr] at h
  cases h
  cases r with
  | error e => exact absurd ht.err e.code_ne_zero
  | ok out' =>
    have hlen := codecResult_length_le hs.inLen_le hr
    rw [(withOutput_holdsOutput hlen s).unique ht]

/-- Settles O26: the string left is that of the payload, which decodes to it. -/
theorem b32RoundTrip : Obligations.B32RoundTrip := by
  intro a a' pad s t u out hs ht hout hin halpha
  obtain ⟨A, hA, henc⟩ := bind_eq_ok (codecResult_of_holdsOutput hs rfl ht hout)
  obtain ⟨-, rfl⟩ := b32enc_eq_ok.1 henc
  obtain ⟨halphabet, hpad⟩ := hs.alpha32_isAlphabet hA
  rw [exec_b32dec (halpha.trans hA), hin, b32dec_base32String halphabet hpad, State.finish_ok]

end Sys2Proof.Machine
end

section
/-! SUPPORT. The integer laws of the Base-58 converter (spec/43_base58.md R150 to R154): the model's digits and values
are those of Mathlib's `Nat.digits` and `Nat.ofDigits`, read most significant first, so a digit sequence without a
leading zero digit is the only one of its value. -/

namespace Sys2Proof.Machine

/-! ### Digits and values in any base -/

theorem foldl_eq_ofDigits (B : Nat) (g : List Nat) :
    g.foldl (fun v d => v * B + d) 0 = Nat.ofDigits B g.reverse := by
  rw [Nat.ofDigits_eq_foldr, List.foldr_reverse]
  simp only [Nat.cast_id, Nat.mul_comm, Nat.add_comm]

/-- Repeated division collects Mathlib's digits. -/
theorem digitsAux_eq_digits {B : Nat} (hB : 1 < B) {fuel v : Nat} (h : v ≤ fuel) :
    digitsAux B fuel v = (Nat.digits B v).reverse := by
  induction fuel generalizing v with
  | zero =>
    obtain rfl : v = 0 := by omega
    simp [digitsAux]
  | succ fuel ih =>
    rw [digitsAux]
    split_ifs with hv
    · simp [hv]
    · have hlt : v / B < v := Nat.div_lt_self (by omega) hB
      rw [ih (by omega), Nat.digits_def' hB (Nat.pos_of_ne_zero hv), List.reverse_cons]

/-- A sequence of digits without a leading zero digit is the one that repeated division of its value gives. -/
theorem digitsAux_of_digits {B : Nat} (hB : 1 < B) {g : List Nat} (hlt : ∀ x ∈ g, x < B) (hhead : g.head? ≠ some 0)
    {fuel : Nat} (h : Nat.ofDigits B g.reverse ≤ fuel) : digitsAux B fuel (Nat.ofDigits B g.reverse) = g := by
  rw [digitsAux_eq_digits hB h, Nat.digits_ofDigits B hB, List.reverse_reverse]
  · simpa using hlt
  · intro hne hzero
    rw [List.getLast_reverse] at hzero
    exact hhead (by rw [List.head?_eq_some_head (by simpa using hne), hzero])

/-- A value read from left to right is the sum of its digits, each with its weight (R150, R154). -/
theorem foldl_eq_sum {α : Type} (f : α → Nat) (B : Nat) (e : α) (l : List α) :
    l.foldl (fun v x => v * B + f x) 0 = ∑ i ∈ Finset.range l.length, f (l.getD i e) * B ^ (l.length - 1 - i) := by
  induction l using List.reverseRecOn with
  | nil => rfl
  | append_singleton l x ih =>
    have hshift : ∀ i ∈ Finset.range l.length,
        f ((l ++ [x]).getD i e) * B ^ (l.length + 1 - 1 - i) = f (l.getD i e) * B ^ (l.length - 1 - i) * B := by
      intro i hi
      have hi : i < l.length := Finset.mem_range.1 hi
      rw [List.getD_append _ _ _ _ hi, mul_assoc, ← pow_succ]
      congr 2
      omega
    rw [List.foldl_concat, ih, List.length_append, List.length_singleton, Finset.sum_range_succ,
      Finset.sum_congr rfl hshift, Finset.sum_mul, List.getD_append_right _ _ _ _ le_rfl]
    simp

/-! ### `nat` and `bytes_min` (R150, R151) -/

theorem natOf_eq_ofDigits (b : List Byte) : natOf b = Nat.ofDigits 256 (b.map BitVec.toNat).reverse := by
  rw [← foldl_eq_ofDigits, List.foldl_map, natOf]

theorem natOf_append (b c : List Byte) : natOf (b ++ c) = natOf b * 256 ^ c.length + natOf c := by
  induction c using List.reverseRecOn with
  | nil => simp [natOf]
  | append_singleton c x ih =>
    rw [← List.append_assoc, natOf_append_singleton, natOf_append_singleton, ih, List.length_append,
      List.length_singleton]
    ring

theorem natOf_cons (x : Byte) (b : List Byte) : natOf (x :: b) = x.toNat * 256 ^ b.length + natOf b := by
  have hsingle : natOf [x] = x.toNat := by simp [natOf]
  rw [← List.singleton_append, natOf_append, hsingle]

/-- Leading zero bytes add nothing to the value (R150). -/
@[simp] theorem natOf_replicate_zero_append (z : Nat) (b : List Byte) : natOf (List.replicate z 0 ++ b) = natOf b := by
  induction z with
  | zero => rfl
  | succ z ih => rw [List.replicate_succ, List.cons_append, natOf_cons, ih]; simp

theorem toNat_map_bytesMin (v : Nat) : (bytesMin v).map BitVec.toNat = digitsAux 256 v v := by
  rw [bytesMin, List.map_map]
  refine (List.map_congr_left fun x hx => ?_).trans (List.map_id _)
  exact (BitVec.toNat_ofNat x 8).trans (Nat.mod_eq_of_lt (digitsAux_lt (by decide) v v x hx))

@[simp] theorem natOf_bytesMin (v : Nat) : natOf (bytesMin v) = v := by
  rw [natOf_eq_ofDigits, toNat_map_bytesMin, ← foldl_eq_ofDigits, digitsAux_value (by decide) le_rfl]

theorem head?_bytesMin (v : Nat) : (bytesMin v).head? ≠ some 0 := by
  intro h
  refine digitsAux_head (b := 256) (by decide) (le_refl v) ?_
  rw [← toNat_map_bytesMin, List.head?_map, h]
  rfl

/-- A byte sequence without a leading zero byte is the `bytes_min` of its value (R151). -/
theorem bytesMin_natOf {c : List Byte} (h : c.head? ≠ some 0) : bytesMin (natOf c) = c := by
  have hlt : ∀ x ∈ c.map BitVec.toNat, x < 256 := by
    intro x hx
    obtain ⟨y, -, rfl⟩ := List.mem_map.1 hx
    exact y.isLt
  have hhead : (c.map BitVec.toNat).head? ≠ some 0 := by
    rw [List.head?_map]
    intro hzero
    obtain ⟨y, hy, hy0⟩ := Option.map_eq_some_iff.1 hzero
    exact h (hy.trans (congrArg some (BitVec.eq_of_toNat_eq hy0)))
  rw [bytesMin, natOf_eq_ofDigits, digitsAux_of_digits (by decide) hlt hhead le_rfl, List.map_map]
  exact (List.map_congr_left fun x _ => by simp).trans (List.map_id _)

theorem length_bytesMin_le_iff {v n : Nat} : (bytesMin v).length ≤ n ↔ v < 256 ^ n := by
  rw [bytesMin, List.length_map]
  exact digitsAux_length (by decide) le_rfl n

/-! ### `digits58` and `val58` (R154) -/

theorem val58_eq_ofDigits (g : List Nat) : val58 g = Nat.ofDigits 58 g.reverse := foldl_eq_ofDigits 58 g

theorem digits58_eq_digits (v : Nat) : digits58 v = (Nat.digits 58 v).reverse :=
  digitsAux_eq_digits (by decide) le_rfl

theorem digits58_of_pos {v : Nat} (h : 0 < v) : digits58 v = digits58 (v / 58) ++ [v % 58] := by
  rw [digits58_eq_digits, digits58_eq_digits, Nat.digits_def' (by decide) h, List.reverse_cons]

@[simp] theorem val58_digits58 (v : Nat) : val58 (digits58 v) = v := digitsAux_value (by decide) le_rfl

theorem lt_of_mem_digits58 {v : Nat} : ∀ x ∈ digits58 v, x < 58 := digitsAux_lt (by decide) v v

theorem head?_digits58 (v : Nat) : (digits58 v).head? ≠ some 0 := digitsAux_head (by decide) le_rfl

/-- A sequence of base-58 digits without a leading zero digit is the `digits58` of its value (R154). -/
theorem digits58_val58 {d : List Nat} (hlt : ∀ x ∈ d, x < 58) (h : d.head? ≠ some 0) : digits58 (val58 d) = d := by
  rw [digits58, val58_eq_ofDigits]
  exact digitsAux_of_digits (by decide) hlt h le_rfl

theorem length_digits58_le_iff {v n : Nat} : (digits58 v).length ≤ n ↔ v < 58 ^ n :=
  digitsAux_length (by decide) le_rfl n

/-- Leading zero digits add nothing to the value (R154). -/
@[simp] theorem val58_replicate_zero_append (z : Nat) (g : List Nat) : val58 (List.replicate z 0 ++ g) = val58 g := by
  induction z with
  | zero => rfl
  | succ z ih => rw [List.replicate_succ, List.cons_append, val58_zero_cons, ih]

/-- Settles O28: the values are sums, and the digits of a value are those of repeated division. -/
theorem integerLaws : Obligations.IntegerLaws := by
  refine ⟨foldl_eq_sum _ 256 0, natOf_replicate_zero_append, rfl, fun v c => ⟨?_, ?_⟩,
    fun v L => length_bytesMin_le_iff.symm, rfl, fun v => digits58_of_pos, foldl_eq_sum id 58 0, val58_digits58⟩
  · rintro rfl
    exact ⟨natOf_bytesMin v, head?_bytesMin v⟩
  · rintro ⟨rfl, h⟩
    exact (bytesMin_natOf h).symm

end Sys2Proof.Machine
end

section
/-! SUPPORT. The Base-58 conversion on byte arrays (spec/43_base58.md R158): one pass is one division or multiplication
of the array's value by 58. -/

namespace Sys2Proof.Machine

/-! ### Long division -/

@[simp] theorem length_divPass (r : Nat) (w : List Byte) : (divPass r w).1.length = w.length := by
  induction w generalizing r with
  | nil => rfl
  | cons x w ih => simp [divPass, ih]

/-- A pass divides by 58, the incoming remainder standing before the array: quotient and remainder give the dividend
back. -/
theorem divPass_value {r : Nat} (hr : r < 58) (w : List Byte) :
    natOf (divPass r w).1 * 58 + (divPass r w).2 = r * 256 ^ w.length + natOf w ∧ (divPass r w).2 < 58 := by
  induction w generalizing r with
  | nil => simpa [divPass, natOf] using hr
  | cons x w ih =>
    have hx : x.toNat < 256 := x.isLt
    have hquot : (BitVec.ofNat 8 ((r * 256 + x.toNat) / 58)).toNat = (r * 256 + x.toNat) / 58 := by
      rw [BitVec.toNat_ofNat]
      omega
    obtain ⟨hvalue, hrem⟩ := ih (Nat.mod_lt (r * 256 + x.toNat) (by decide))
    refine ⟨?_, hrem⟩
    simp only [divPass, natOf_cons, hquot, length_divPass, List.length_cons]
    calc _ = (r * 256 + x.toNat) / 58 * 58 * 256 ^ w.length
            + (natOf (divPass ((r * 256 + x.toNat) % 58) w).1 * 58
              + (divPass ((r * 256 + x.toNat) % 58) w).2) := by ring
      _ = (58 * ((r * 256 + x.toNat) / 58) + (r * 256 + x.toNat) % 58) * 256 ^ w.length + natOf w := by
          rw [hvalue]; ring
      _ = r * 256 ^ (w.length + 1) + (x.toNat * 256 ^ w.length + natOf w) := by rw [Nat.div_add_mod]; ring

theorem natOf_divPass (w : List Byte) : natOf (divPass 0 w).1 = natOf w / 58 ∧ (divPass 0 w).2 = natOf w % 58 := by
  obtain ⟨hvalue, hrem⟩ := divPass_value (r := 0) (by decide) w
  omega

/-- The loop's test: every byte is zero exactly when the value is. -/
theorem all_zero_iff {w : List Byte} : w.all (· == 0) = true ↔ natOf w = 0 := by
  induction w with
  | nil => simp [natOf]
  | cons x w ih =>
    rw [List.all_cons, Bool.and_eq_true, ih, natOf_cons, Nat.add_eq_zero_iff, Nat.mul_eq_zero, beq_iff_eq,
      or_iff_left (by positivity), ← BitVec.toNat_inj]
    rfl

/-- With enough divisions the loop puts the digits of the value before those found so far. -/
theorem digits58BytesAux_eq {fuel : Nat} {w : List Byte} (h : natOf w < 2 ^ fuel) (acc : List Nat) :
    digits58BytesAux fuel w acc = digits58 (natOf w) ++ acc := by
  induction fuel generalizing w acc with
  | zero =>
    obtain hw : natOf w = 0 := by simpa using h
    rw [hw]
    rfl
  | succ fuel ih =>
    rw [digits58BytesAux]
    split_ifs with hzero
    · rw [all_zero_iff.1 hzero]
      rfl
    · have hpos : 0 < natOf w := Nat.pos_of_ne_zero (mt all_zero_iff.2 hzero)
      obtain ⟨hquot, hrem⟩ := natOf_divPass w
      rw [ih (by rw [hquot]; omega), hquot, hrem, digits58_of_pos hpos, List.append_assoc, List.singleton_append]

theorem digits58Bytes_eq (b : List Byte) : digits58Bytes b = digits58 (natOf b) := by
  have hfuel : natOf b < 2 ^ (8 * b.length) := by
    rw [pow_mul]
    exact natOf_lt b
  rw [digits58Bytes, digits58BytesAux_eq hfuel, List.append_nil]

/-! ### Multiplication -/

@[simp] theorem length_mulPass (carry : Nat) (w : List Byte) : (mulPass carry w).1.length = w.length := by
  induction w with
  | nil => rfl
  | cons x w ih => simp [mulPass, ih]

/-- A pass multiplies by 58 and adds; the carry out stands before the array. -/
theorem mulPass_value (carry : Nat) (w : List Byte) :
    (mulPass carry w).2 * 256 ^ w.length + natOf (mulPass carry w).1 = natOf w * 58 + carry := by
  induction w with
  | nil => simp [mulPass, natOf]
  | cons x w ih =>
    have hbyte : ∀ acc : Nat, (BitVec.ofNat 8 (acc % 256)).toNat = acc % 256 := by
      intro acc
      rw [BitVec.toNat_ofNat]
      omega
    simp only [mulPass, natOf_cons, hbyte, length_mulPass, List.length_cons]
    calc _ = (256 * ((x.toNat * 58 + (mulPass carry w).2) / 256) + (x.toNat * 58 + (mulPass carry w).2) % 256)
            * 256 ^ w.length + natOf (mulPass carry w).1 := by ring
      _ = x.toNat * 58 * 256 ^ w.length + ((mulPass carry w).2 * 256 ^ w.length + natOf (mulPass carry w).1) := by
          rw [Nat.div_add_mod]; ring
      _ = (x.toNat * 256 ^ w.length + natOf w) * 58 + carry := by rw [ih]; ring

/-- What does not fit in the array is lost. -/
theorem natOf_mulPass (carry : Nat) (w : List Byte) :
    natOf (mulPass carry w).1 = (natOf w * 58 + carry) % 256 ^ w.length := by
  have hlt : natOf (mulPass carry w).1 < 256 ^ w.length := length_mulPass carry w ▸ natOf_lt _
  rw [← mulPass_value, Nat.mul_add_mod', Nat.mod_eq_of_lt hlt]

theorem val58Bytes_append_singleton (g : List Nat) (x room : Nat) :
    val58Bytes (g ++ [x]) room = (mulPass x (val58Bytes g room)).1 := by simp [val58Bytes]

@[simp] theorem length_val58Bytes (g : List Nat) (room : Nat) : (val58Bytes g room).length = room := by
  induction g using List.reverseRecOn with
  | nil => simp [val58Bytes]
  | append_singleton g x ih => rw [val58Bytes_append_singleton, length_mulPass, ih]

/-- The array holds the value modulo its room. -/
theorem natOf_val58Bytes (g : List Nat) (room : Nat) : natOf (val58Bytes g room) = val58 g % 256 ^ room := by
  induction g using List.reverseRecOn with
  | nil =>
    have hzero := natOf_replicate_zero_append room []
    rw [List.append_nil] at hzero
    simpa [val58Bytes, val58, natOf] using hzero
  | append_singleton g x ih =>
    rw [val58Bytes_append_singleton, natOf_mulPass, ih, length_val58Bytes, val58_append_singleton]
    exact Nat.ModEq.add_right x (Nat.ModEq.mul_right 58 (Nat.mod_modEq _ _))

/-- Settles O29: with room for the value the array is the one of its length and value. -/
theorem byteArrayConversionAgrees : Obligations.ByteArrayConversionAgrees := by
  refine ⟨digits58Bytes_eq, fun g room hg hroom => ?_⟩
  have hlt : val58 g < 256 ^ room := calc
    val58 g < 58 ^ g.length := val58_lt hg
    _ ≤ 256 ^ g.length := Nat.pow_le_pow_left (by decide) _
    _ ≤ 256 ^ room := Nat.pow_le_pow_right (by decide) hroom
  have hfits : (bytesMin (val58 g)).length ≤ room := length_bytesMin_le_iff.2 hlt
  refine ⟨hfits, eq_of_natOf_eq ?_ ?_⟩
  · rw [length_val58Bytes, List.length_append, List.length_replicate]
    omega
  · rw [natOf_val58Bytes, Nat.mod_eq_of_lt hlt, natOf_replicate_zero_append, natOf_bytesMin]

end Sys2Proof.Machine
end

section
/-! SUPPORT. The Base-58 radix converter (spec/43_base58.md R153 to R157): a byte sequence is its leading zero bytes and
the minimal bytes of its value, a string is its leading zero-index symbols and the symbols of the digits of its value,
and the two commands go from one form to the other. -/

namespace Sys2Proof.Machine

/-! ### Leading runs (R153) -/

/-- Every sequence is a run of `z` and a rest that does not begin with `z`. -/
theorem exists_eq_replicate_append {α : Type} [DecidableEq α] (z : α) (l : List α) :
    ∃ (n : Nat) (rest : List α), l = List.replicate n z ++ rest ∧ rest.head? ≠ some z := by
  induction l with
  | nil => exact ⟨0, [], rfl, nofun⟩
  | cons x l ih =>
    by_cases hx : x = z
    · obtain ⟨n, rest, rfl, hrest⟩ := ih
      exact ⟨n + 1, rest, by rw [hx, List.replicate_succ, List.cons_append], hrest⟩
    · exact ⟨0, x :: l, rfl, by simpa using hx⟩

theorem leadingRun_replicate_append {z : Byte} {rest : List Byte} (h : rest.head? ≠ some z) (n : Nat) :
    leadingRun z (List.replicate n z ++ rest) = n := by
  induction n with
  | zero =>
    cases rest with
    | nil => rfl
    | cons x rest =>
      have hx : x ≠ z := by simpa using h
      simp [leadingRun, hx]
  | succ n ih => simpa [leadingRun, List.replicate_succ] using ih

/-- The leading run is all `z`, and ends where it says. -/
theorem leadingRun_maximal (z : Byte) (s : List Byte) :
    (∀ i < leadingRun z s, s[i]? = some z) ∧ s[leadingRun z s]? ≠ some z := by
  obtain ⟨n, rest, rfl, hrest⟩ := exists_eq_replicate_append z s
  rw [leadingRun_replicate_append hrest]
  refine ⟨fun i hi => ?_, ?_⟩
  · rw [List.getElem?_append_left (by simpa using hi), List.getElem?_replicate, if_pos hi]
  · rwa [List.getElem?_append_right (by simp), List.length_replicate, Nat.sub_self, ← List.head?_eq_getElem?]

/-- A byte sequence is its leading zero bytes and the minimal bytes of its value. -/
theorem replicate_lz_append_bytesMin (b : List Byte) : List.replicate (lz b) 0 ++ bytesMin (natOf b) = b := by
  obtain ⟨n, c, rfl, hc⟩ := exists_eq_replicate_append 0 b
  rw [lz, leadingRun_replicate_append hc, natOf_replicate_zero_append, bytesMin_natOf hc]

theorem length_bytesMin_natOf (b : List Byte) : (bytesMin (natOf b)).length = b.length - lz b := by
  have hlen := congrArg List.length (replicate_lz_append_bytesMin b)
  rw [List.length_append, List.length_replicate] at hlen
  omega

/-- The symbols of the indices looked up are the string. -/
theorem map_sym_of_lookup {A s : List Byte} {g : List Nat} (h : lookupAll (idx A) s = some g) : g.map (sym A) = s := by
  have hall := lookupAll_eq_some.1 h
  clear h
  induction hall with
  | nil => rfl
  | cons hc _ ih => rw [List.map_cons, sym_of_idx hc, ih]

/-! ### The two conversions (R155, R156) -/

section
variable {cap : Nat} {A b s : List Byte}

/-- The string of a byte sequence is the one R155 describes. -/
theorem isBase58String_base58String (A b : List Byte) : IsBase58String A b (base58String A b) := by
  obtain ⟨hrun, hend⟩ := leadingRun_maximal 0 b
  exact ⟨lz b, digits58 (natOf b), rfl, hrun, hend, val58_digits58 _, lt_of_mem_digits58, head?_digits58 _⟩

theorem b58enc_of_le (h : (base58String A b).length ≤ cap) : b58enc cap A b = .ok (base58String A b) :=
  if_neg (Nat.not_lt.2 h)

theorem b58enc_of_lt (h : cap < (base58String A b).length) : b58enc cap A b = .error .capacity := if_pos h

/-- B58ENC answers the string, where it fits. -/
theorem b58enc_eq_ok {out : List Byte} :
    b58enc cap A b = .ok out ↔ (base58String A b).length ≤ cap ∧ base58String A b = out := by
  by_cases h : (base58String A b).length ≤ cap
  · rw [b58enc_of_le h, Except.ok.injEq, and_iff_right h]
  · rw [b58enc_of_lt (by omega)]
    exact iff_of_false nofun fun h' => h h'.1

theorem b58dec_of_lookup {g : List Nat} (h : lookupAll (idx A) s = some g) :
    b58dec A s = .ok (List.replicate (lzs s A) 0 ++ bytesMin (val58 g)) := by rw [b58dec, h]

/-- FORMAT is for a symbol that is foreign to the alphabet. -/
theorem b58dec_of_foreign (h : ∃ c ∈ s, c ∉ A) : b58dec A s = .error .format := by
  obtain ⟨c, hc, hA⟩ := h
  rw [b58dec, lookupAll_eq_none.2 ⟨c, hc, idx_eq_none.2 hA⟩]

/-- B58DEC accepts only strings that are looked up. -/
theorem exists_lookupAll_of_b58dec {b : List Byte} (h : b58dec A s = .ok b) : ∃ g, lookupAll (idx A) s = some g := by
  unfold b58dec at h
  split at h
  · cases h
  · next g hg => exact ⟨g, hg⟩

/-- What a string is looked up to decodes as R156 describes. -/
theorem isBase58Decoding_of_lookup {g : List Nat} (h : lookupAll (idx A) s = some g) :
    IsBase58Decoding A s (List.replicate (lzs s A) 0 ++ bytesMin (val58 g)) := by
  obtain ⟨hrun, hend⟩ := leadingRun_maximal (sym A 0) s
  exact ⟨lzs s A, bytesMin (val58 g), g, rfl, lookupAll_eq_some.1 h, natOf_bytesMin _, head?_bytesMin _, hrun, hend⟩

end

/-! ### The round trip (R157) -/

section
variable {A : List Byte} (hA : IsAlphabet 58 A)
include hA

/-- Only the digit 0 has the zero-index symbol, so symbols begin with it only if the digits begin with 0. -/
theorem head?_map_sym_ne {d : List Nat} (hlt : ∀ x ∈ d, x < 58) (h : d.head? ≠ some 0) :
    (d.map (sym A)).head? ≠ some (sym A 0) := by
  cases d with
  | nil => nofun
  | cons x d =>
    intro hsym
    have hx : sym A x = sym A 0 := by simpa using hsym
    have hidx : idx A (sym A x) = some x := idx_sym hA.nodup (hA.size ▸ hlt x (List.mem_cons_self ..))
    rw [hx] at hidx
    exact h (congrArg some (idx_sym_zero hidx))

/-- A string of `z` zero-index symbols and the symbols of digits without a leading zero digit decodes to `z` zero bytes
and the minimal bytes of the digits' value. -/
theorem b58dec_digits {d : List Nat} (hlt : ∀ x ∈ d, x < 58) (h : d.head? ≠ some 0) (z : Nat) :
    b58dec A (List.replicate z (sym A 0) ++ d.map (sym A)) = .ok (List.replicate z 0 ++ bytesMin (val58 d)) := by
  have hlookup : lookupAll (idx A) (List.replicate z (sym A 0) ++ d.map (sym A)) = some (List.replicate z 0 ++ d) := by
    rw [← List.map_replicate, ← List.map_append]
    refine lookupAll_map fun k hk => idx_sym hA.nodup (hA.size ▸ ?_)
    rcases List.mem_append.1 hk with hk | hk
    · rw [List.eq_of_mem_replicate hk]
      decide
    · exact hlt k hk
  rw [b58dec_of_lookup hlookup, val58_replicate_zero_append, lzs,
    leadingRun_replicate_append (head?_map_sym_ne hA hlt h)]

/-- R157 (a): the string of a byte sequence decodes to it. -/
theorem b58dec_base58String (b : List Byte) : b58dec A (base58String A b) = .ok b := by
  rw [base58String, b58dec_digits hA lt_of_mem_digits58 (head?_digits58 _), val58_digits58,
    replicate_lz_append_bytesMin]

/-- A string that is looked up is made of zero-index symbols and the symbols of digits without a leading zero digit. -/
theorem exists_digits_of_lookup {s : List Byte} {g : List Nat} (h : lookupAll (idx A) s = some g) :
    ∃ (z : Nat) (d : List Nat), s = List.replicate z (sym A 0) ++ d.map (sym A)
      ∧ (∀ x ∈ d, x < 58) ∧ d.head? ≠ some 0 := by
  have hlt : ∀ x ∈ g, x < 58 := lookupAll_bound h fun _ _ hk => hA.size ▸ idx_lt hk
  have hs : g.map (sym A) = s := map_sym_of_lookup h
  obtain ⟨z, d, rfl, hhead⟩ := exists_eq_replicate_append 0 g
  rw [List.map_append, List.map_replicate] at hs
  exact ⟨z, d, hs.symm, fun x hx => hlt x (List.mem_append_right _ hx), hhead⟩

/-- R157 (b): what a string decodes to has that string. -/
theorem base58String_of_b58dec {s b : List Byte} (h : b58dec A s = .ok b) : base58String A b = s := by
  obtain ⟨g, hg⟩ := exists_lookupAll_of_b58dec h
  obtain ⟨z, d, rfl, hlt, hhead⟩ := exists_digits_of_lookup hA hg
  obtain rfl : List.replicate z 0 ++ bytesMin (val58 d) = b := by
    rwa [b58dec_digits hA hlt hhead, Except.ok.injEq] at h
  rw [base58String, lz, leadingRun_replicate_append (head?_bytesMin _), natOf_replicate_zero_append, natOf_bytesMin,
    digits58_val58 hlt hhead]

end

/-! ### The commands on the machine -/

/-- Every selector but HEX makes the Base-58 commands well formed (R83). -/
theorem base58_of_ne_hex {a : ASel} (h : a ≠ .hex) : a.base58 = true := by
  cases a with
  | std | cus => rfl
  | hex => exact absurd rfl h

/-- Under the invariant a selected Base-58 table is an alphabet (R104, R109). -/
theorem State.Inv.alpha58_isAlphabet {a : ASel} {s : State} {A : List Byte} (hs : s.Inv) (h : alpha58 a s = .ok A) :
    IsAlphabet 58 A := by
  cases a with
  | std => cases h; exact isAlphabet_B58STD
  | hex => cases h
  | cus =>
    simp only [alpha58, slotAlphabet] at h
    split at h <;> cases h
    next hvalid => exact hs.slot58_alphabet hvalid

section
variable {a : ASel} {s : State} {A : List Byte} (hA : alpha58 a s = .ok A)
include hA

theorem exec_b58enc : exec (.b58enc a) s = .next (s.finish (b58enc Config.CAP A (input s))) :=
  exec_of_codecResult (by rw [codecResult, hA]; rfl)

theorem exec_b58dec : exec (.b58dec a) s = .next (s.finish (b58dec A (input s))) :=
  exec_of_codecResult (by rw [codecResult, hA]; rfl)

theorem exec_b58cenc :
    exec (.b58cenc a) s = .next (s.finish (b58enc Config.CAP A (input s ++ ck Config.H (input s)))) :=
  exec_of_codecResult (by rw [codecResult, hA]; rfl)

theorem exec_b58enc_of_le (h : (base58String A (input s)).length ≤ Config.CAP) :
    exec (.b58enc a) s = .next (s.withOutput (base58String A (input s))) := by
  rw [exec_b58enc hA, b58enc_of_le h, State.finish_ok]

theorem exec_b58enc_of_lt (h : Config.CAP < (base58String A (input s)).length) :
    exec (.b58enc a) s = .next (s.raise .capacity) := by
  rw [exec_b58enc hA, b58enc_of_lt h, State.finish_error]

end

/-- Settles O33: each command left its result, from which the other gives the operand back; the string that was decoded
fits, as it stood in IN. -/
theorem b58EncodeAndDecodeAreInverse : Obligations.B58EncodeAndDecodeAreInverse := by
  intro a a' s t u out hs hout hin halpha
  refine ⟨fun ht => ?_, fun ht => ?_⟩
  · obtain ⟨A, hA, henc⟩ := bind_eq_ok (codecResult_of_holdsOutput hs rfl ht hout)
    obtain ⟨-, rfl⟩ := b58enc_eq_ok.1 henc
    rw [exec_b58dec (halpha.trans hA), hin, b58dec_base58String (hs.alpha58_isAlphabet hA), State.finish_ok]
  · obtain ⟨A, hA, hdec⟩ := bind_eq_ok (codecResult_of_holdsOutput hs rfl ht hout)
    have hstring : base58String A (input u) = input s :=
      hin ▸ base58String_of_b58dec (hs.alpha58_isAlphabet hA) hdec
    have hfits : (input s).length ≤ Config.CAP := length_input s ▸ hs.inLen_le
    rw [exec_b58enc_of_le (halpha.trans hA) (hstring ▸ hfits), hstring]

/-- Settles O30: the string of R155, where its length meets CAP. -/
theorem b58encConvertsTheRadix : Obligations.B58encConvertsTheRadix := by
  refine ⟨fun a ha => encode_mem_legalTable (base58_of_ne_hex ha), fun a s => ⟨?_, fun A hA => ?_⟩⟩
  · rintro rfl hempty
    exact ⟨(exec_base58_of_error (a := .cus) (slotAlphabet_of_empty hempty)).1, rfl⟩
  · exact ⟨_, isBase58String_base58String A (input s),
      fun hcap => ⟨exec_b58enc_of_le hA hcap, statusErrf_withOutput _ s⟩,
      fun hcap => ⟨exec_b58enc_of_lt hA hcap, rfl⟩⟩

/-- Settles O31: the indices looked up decode as R156 describes, or a symbol is foreign. -/
theorem b58decConvertsTheRadix : Obligations.B58decConvertsTheRadix := by
  refine ⟨fun a ha => encode_mem_legalTable (base58_of_ne_hex ha),
    fun a s => ⟨?_, fun A hA => ⟨fun hforeign => ?_, fun hall => ?_⟩⟩⟩
  · rintro rfl hempty
    exact ⟨(exec_base58_of_error (a := .cus) (slotAlphabet_of_empty hempty)).2.1, rfl⟩
  · exact ⟨by rw [exec_b58dec hA, b58dec_of_foreign hforeign, State.finish_error], rfl, statusErrf_raise .format s⟩
  · obtain ⟨g, hg⟩ := exists_lookupAll_idx hall
    have hdec := b58dec_of_lookup hg
    exact ⟨_, isBase58Decoding_of_lookup hg, fun _ => b58dec_length_le (alpha58_length hA) hdec,
      by rw [exec_b58dec hA, hdec, State.finish_ok], statusErrf_withOutput _ s⟩

/-! ### Lengths (R157 (c), R205) -/

/-- The value of a byte sequence is bounded by the bytes after its leading zero bytes. -/
theorem natOf_lt_of_lz (b : List Byte) : natOf b < 256 ^ (b.length - lz b) :=
  length_bytesMin_le_iff.1 (length_bytesMin_natOf b).le

theorem sub_lz_le_length_digits58 (b : List Byte) : b.length - lz b ≤ (digits58 (natOf b)).length := by
  rw [← length_bytesMin_natOf, length_bytesMin_le_iff]
  exact (length_digits58_le_iff.1 le_rfl).trans_le (Nat.pow_le_pow_left (by decide) _)

/-- A byte takes at most 1.38 base-58 digits (R157 (c)): `256 ^ 100 <= 58 ^ 138`. -/
theorem pow_256_le_pow_58 (m : Nat) : 256 ^ m ≤ 58 ^ (138 * m / 100 + 1) := by
  refine (Nat.pow_le_pow_iff_left (n := 100) (by decide)).1 ?_
  calc (256 ^ m) ^ 100 = (256 ^ 100) ^ m := pow_right_comm 256 m 100
    _ ≤ (58 ^ 138) ^ m := Nat.pow_le_pow_left (by norm_num) m
    _ = 58 ^ (138 * m) := (pow_mul 58 138 m).symm
    _ ≤ 58 ^ ((138 * m / 100 + 1) * 100) := Nat.pow_le_pow_right (by decide) (by omega)
    _ = (58 ^ (138 * m / 100 + 1)) ^ 100 := pow_mul ..

theorem length_digits58_natOf_le (b : List Byte) :
    (digits58 (natOf b)).length ≤ 138 * (b.length - lz b) / 100 + 1 :=
  length_digits58_le_iff.2 ((natOf_lt_of_lz b).trans_le (pow_256_le_pow_58 _))

/-- The bound of R205: a leading zero byte takes one symbol, less than its share of the bound. -/
theorem length_base58String_le (A b : List Byte) : (base58String A b).length ≤ 138 * b.length / 100 + 1 := by
  have hdigits := length_digits58_natOf_le b
  have hrun : lz b ≤ b.length := leadingRun_le 0 b
  rw [base58String, List.length_append, List.length_replicate, List.length_map]
  omega

/-- Settles O32: the digits are bounded by the bytes after the leading zeros, and R205's bound leaves room for 4 bytes
of checksum. -/
theorem b58LengthBounds : Obligations.B58LengthBounds := by
  refine ⟨fun b => ⟨sub_lz_le_length_digits58 b, length_digits58_natOf_le b, fun hzero => ?_⟩,
    fun a s A hA hcap => ⟨?_, ?_⟩⟩
  · have hvalue : natOf b = 0 := by simpa [hzero] using natOf_lt_of_lz b
    rw [hvalue]
    rfl
  · have hlen := length_base58String_le A (input s)
    exact ⟨_, exec_b58enc_of_le hA (by omega), rfl⟩
  · have hlen := length_base58String_le A (input s ++ ck Config.H (input s))
    rw [List.length_append, length_ck] at hlen
    exact ⟨_, by rw [exec_b58cenc hA, b58enc_of_le (hlen.trans hcap), State.finish_ok], rfl⟩

end Sys2Proof.Machine
end

section
/-! SUPPORT. The checksum-embed wrapper (spec/44_base58_checksum.md R170 to R174): B58CENC is B58ENC of the payload with
its checksum, and B58CDEC is decided by what B58DEC gives, so that the round trip is the one of R157. -/

namespace Sys2Proof.Machine

/-! ### The two conversions (R172, R173) -/

section
variable {H : List Byte → List Byte} {cap : Nat} {A p c d s : List Byte}

/-- Digests of at least 4 bytes leave a checksum of 4 (R170, R171). -/
theorem length_ck_of_four_le (hH : ∀ m, 4 ≤ (H m).length) (p : List Byte) : (ck H p).length = 4 :=
  List.length_take_of_le (hH (H p))

/-- B58CDEC fails where B58DEC does. -/
theorem b58cdec_of_error {e : ErrKind} (h : b58dec A s = .error e) : b58cdec H A s = .error e := by rw [b58cdec, h]

theorem b58cdec_of_short (h : b58dec A s = .ok d) (hd : d.length < 4) : b58cdec H A s = .error .format := by
  rw [b58cdec, h]
  exact if_pos hd

/-- Decoded bytes `p ++ c` are split before the last 4 and compared. -/
theorem b58cdec_of_append (h : b58dec A s = .ok (p ++ c)) (hc : c.length = 4) :
    b58cdec H A s = if ck H p = c then .ok p else .error .checksum := by
  have hlong : ¬ (p ++ c).length < 4 := by rw [List.length_append]; omega
  have hsplit : (p ++ c).length - 4 = p.length := by rw [List.length_append]; omega
  rw [b58cdec, h]
  simp only [if_neg hlong, hsplit, List.take_left, List.drop_left, ite_not]

/-- R174 (a): the payload and its 4 bytes of checksum come back by R157 (a), and the comparison holds. -/
theorem b58cdec_of_b58cenc (hA : IsAlphabet 58 A) (hlen : (ck H p).length = 4) (h : b58cenc H cap A p = .ok s) :
    b58cdec H A s = .ok p := by
  obtain ⟨-, rfl⟩ := b58enc_eq_ok.1 h
  rw [b58cdec_of_append (b58dec_base58String hA _) hlen, if_pos rfl]

end

/-- Settles O37: the decoded bytes are split where the checksum begins; a failed comparison answers no payload. -/
theorem checksumWrapsBase58 : Obligations.ChecksumWrapsBase58 := by
  refine fun H cap A hH hA => ⟨fun _ => rfl, fun s p c hdec hc => ?_, fun p s henc => ?_⟩
  · by_cases hck : ck H p = c
    · have hok : b58cdec H A s = .ok p := by rw [b58cdec_of_append hdec hc, if_pos hck]
      exact ⟨iff_of_true ⟨p, hok⟩ hck.symm, fun _ => hok⟩
    · have herr : b58cdec H A s = .error .checksum := by rw [b58cdec_of_append hdec hc, if_neg hck]
      have hne : c ≠ (H (H p)).take 4 := Ne.symm hck
      exact ⟨iff_of_false (by simp [herr]) hne, fun h => absurd h hne⟩
  · exact b58cdec_of_b58cenc hA (length_ck_of_four_le hH p) henc

/-! ### The commands on the machine -/

section
variable {a : ASel} {s : State} {A : List Byte} (hA : alpha58 a s = .ok A)
include hA

theorem exec_b58cdec : exec (.b58cdec a) s = .next (s.finish (b58cdec Config.H A (input s))) :=
  exec_of_codecResult (by rw [codecResult, hA]; rfl)

theorem exec_b58cdec_of_ok {p : List Byte} (h : b58cdec Config.H A (input s) = .ok p) :
    exec (.b58cdec a) s = .next (s.withOutput p) := by
  rw [exec_b58cdec hA, h, State.finish_ok]

theorem exec_b58cdec_of_error {e : ErrKind} (h : b58cdec Config.H A (input s) = .error e) :
    exec (.b58cdec a) s = .next (s.raise e) := by
  rw [exec_b58cdec hA, h, State.finish_error]

end

/-- Settles O36: B58CENC left the checksummed string, which decodes to its payload under the same alphabet. -/
theorem checksumRoundTrip : Obligations.ChecksumRoundTrip := by
  intro a a' s t u out hs ht hout hin halpha
  obtain ⟨A, hA, henc⟩ := bind_eq_ok (codecResult_of_holdsOutput hs rfl ht hout)
  have hdec : b58cdec Config.H A out = .ok (input s) :=
    b58cdec_of_b58cenc (hs.alpha58_isAlphabet hA) (length_ck (input s)) henc
  exact exec_b58cdec_of_ok (halpha.trans hA) (hin ▸ hdec)

/-- Settles O34: the string of R155 for the payload and its checksum, where its length meets CAP. -/
theorem b58cencAppendsTheChecksum : Obligations.B58cencAppendsTheChecksum := by
  refine ⟨fun a ha => encode_mem_legalTable (base58_of_ne_hex ha), fun a s => ⟨?_, fun A hA => ?_⟩⟩
  · rintro rfl hempty
    exact ⟨(exec_base58_of_error (a := .cus) (slotAlphabet_of_empty hempty)).2.2.1, rfl⟩
  · refine ⟨ck Config.H (input s), _, rfl, length_ck _, isBase58String_base58String A _,
      fun hcap => ⟨?_, statusErrf_withOutput _ s⟩, fun hcap => ⟨?_, rfl⟩⟩
    · rw [exec_b58cenc hA, b58enc_of_le hcap, State.finish_ok]
    · rw [exec_b58cenc hA, b58enc_of_lt hcap, State.finish_error]

/-- Settles O35: a foreign symbol, a short decoding, a failed comparison, and the payload, in R173's order. -/
theorem b58cdecVerifiesTheChecksum : Obligations.B58cdecVerifiesTheChecksum := by
  refine ⟨fun a ha => encode_mem_legalTable (base58_of_ne_hex ha),
    fun a s => ⟨?_, fun A hA => ⟨fun hforeign => ?_, fun hall => ?_⟩⟩⟩
  · rintro rfl hempty
    exact ⟨(exec_base58_of_error (a := .cus) (slotAlphabet_of_empty hempty)).2.2.2, rfl⟩
  · exact ⟨exec_b58cdec_of_error hA (b58cdec_of_error (b58dec_of_foreign hforeign)), rfl, statusErrf_raise .format s⟩
  · obtain ⟨g, hg⟩ := exists_lookupAll_idx hall
    have hdec := b58dec_of_lookup hg
    refine ⟨_, isBase58Decoding_of_lookup hg,
      fun hshort => exec_b58cdec_of_error hA (b58cdec_of_short hdec hshort), fun p c hd hc => ?_⟩
    rw [hd] at hdec
    have hcdec := b58cdec_of_append (H := Config.H) hdec hc
    refine ⟨fun hne => ⟨exec_b58cdec_of_error hA ?_, rfl, statusErrf_raise .checksum s⟩,
      fun heq => ⟨exec_b58cdec_of_ok hA ?_, statusErrf_withOutput p s⟩⟩
    · exact hcdec.trans (if_neg hne)
    · exact hcdec.trans (if_pos heq)

end Sys2Proof.Machine
end

section
/-! SUPPORT. Errors (spec/60_exceptions.md R201 to R207): which kinds each command reports, and that a failed command is
an error entry and nothing else. -/

namespace Sys2Proof.Machine

/-! ### Illegal words (R204) -/

/-- A word that R86's table does not list is rejected. -/
theorem exists_decode_error {w : Word} (h : w ∉ legalTable.map Prod.fst) : ∃ r, decode w = .error r := by
  cases hd : decode w with
  | error r => exact ⟨r, rfl⟩
  | ok i =>
    have hmem : (w, i) ∈ legalTable := mem_legalTable_iff.2 (decode_eq_ok_iff.1 hd)
    exact absurd (List.mem_map_of_mem hmem) h

/-- Settles O6: the word is rejected, so the engine step is the error entry with ILLEGAL. -/
theorem illegalWordEndsWithErrFour : Obligations.IllegalWordEndsWithErrFour := by
  intro s hs
  obtain ⟨r, hr⟩ := exists_decode_error hs
  rw [engineStep_error hr]
  rfl

/-! ### Failed commands (R206, R207) -/

/-- Of the four ends of a command only error entry leaves ERR set. -/
theorem exec_failed {i : Instr} {s t : State} (h : exec i s = .next t) (herr : t.err ≠ 0) : ∃ e, t = s.raise e := by
  rcases exec_ends h with ⟨out, -, rfl⟩ | he | ⟨tab, -, -, rfl⟩ | ⟨tab, -, -, rfl⟩
  · exact absurd (State.withOutput_err out s) herr
  · exact he
  · exact absurd (State.withSlot32_err tab s) herr
  · exact absurd (State.withSlot58_err tab s) herr

theorem engineStep_failed {s t : State} (h : engineStep s = .next t) (herr : t.err ≠ 0) : ∃ e, t = s.raise e := by
  rcases engineStep_cases h with ⟨i, -, hi⟩ | hill
  · exact exec_failed hi herr
  · exact ⟨.illegal, hill⟩

/-- Settles O8: a failed engine step is an error entry, which writes PHASE, ERR, OUT_LEN and OUT only. -/
theorem failedCommandHasNoOtherEffect : Obligations.FailedCommandHasNoOtherEffect := by
  intro s t h herr
  obtain ⟨e, rfl⟩ := engineStep_failed h herr
  exact ⟨rfl, statusErrf_raise e s⟩

/-! ### The kinds each conversion reports (R202) -/

section
variable {cap : Nat} {A b s : List Byte} {e : ErrKind}

theorem b16enc_error (h : b16enc cap b = .error e) : e = .capacity := by
  unfold b16enc at h
  split at h <;> cases h
  rfl

theorem b16dec_error (h : b16dec s = .error e) : e = .format := by
  unfold b16dec at h
  split at h
  · cases h; rfl
  · split at h <;> cases h
    rfl

theorem b32enc_error {pad : Bool} (h : b32enc cap A pad b = .error e) : e = .capacity := by
  unfold b32enc at h
  split at h <;> cases h
  rfl

theorem b32dec_error (h : b32dec A s = .error e) : e = .format := by
  unfold b32dec at h
  split at h <;> cases h
  rfl

theorem b58enc_error (h : b58enc cap A b = .error e) : e = .capacity := by
  unfold b58enc at h
  split at h <;> cases h
  rfl

theorem b58dec_error (h : b58dec A s = .error e) : e = .format := by
  unfold b58dec at h
  split at h <;> cases h
  rfl

/-- B58CDEC reports FORMAT for the conversion and for a short payload, CHECKSUM for the comparison (R173). -/
theorem b58cdec_error {H : List Byte → List Byte} (h : b58cdec H A s = .error e) : e = .format ∨ e = .checksum := by
  unfold b58cdec at h
  split at h
  next hdec => cases h; exact .inl (b58dec_error hdec)
  · split at h
    · cases h; exact .inl rfl
    · split at h <;> cases h
      exact .inr rfl

end

/-! ### The kind an alphabet selection reports (R111, R113) -/

theorem slotAlphabet_error {n : Nat} {slot : Slot n} {e : ErrKind} (h : slotAlphabet slot = .error e) :
    e = .config := by
  unfold slotAlphabet at h
  split at h <;> cases h
  rfl

theorem alpha32_error {a : ASel} {s : State} {e : ErrKind} (h : alpha32 a s = .error e) : a = .cus ∧ e = .config := by
  cases a with
  | std => cases h
  | hex => cases h
  | cus => exact ⟨rfl, slotAlphabet_error h⟩

/-- `HEX`, which names no Base-58 alphabet, is no legal form (R83). -/
theorem alpha58_error {a : ASel} {s : State} {e : ErrKind} (ha : a.base58 = true) (h : alpha58 a s = .error e) :
    a = .cus ∧ e = .config := by
  cases a with
  | std => cases h
  | hex => cases ha
  | cus => exact ⟨rfl, slotAlphabet_error h⟩

/-! ### The kinds each command reports (R202) -/

/-- A computation that goes on after a selection fails in one of its parts. -/
theorem bind_eq_error {α β : Type} {x : Except ErrKind α} {f : α → Except ErrKind β} {e : ErrKind}
    (h : x.bind f = .error e) : x = .error e ∨ ∃ a, f a = .error e := by
  cases x with
  | error e' => cases h; exact .inl rfl
  | ok a => exact .inr ⟨a, h⟩

/-- The rows of R202 for commands with an alphabet: the kinds `codes` of the conversion, and CONFIG with ASEL = 2
only. -/
theorem code_mem_of_bind_eq_error {a : ASel} {x : Except ErrKind (List Byte)}
    {f : List Byte → Except ErrKind (List Byte)} {e : ErrKind} {codes : List Nat} (h : x.bind f = .error e)
    (hsel : x = .error e → a = .cus ∧ e = .config) (hconv : ∀ A, f A = .error e → e.code.toNat ∈ codes) :
    e.code.toNat ∈ if a = .cus then 0 :: 3 :: codes else 0 :: codes := by
  rcases bind_eq_error h with hx | ⟨A, hf⟩
  · obtain ⟨rfl, rfl⟩ := hsel hx
    simp [ErrKind.code]
  · have hmem := hconv A hf
    split <;> simp [hmem]

theorem zero_mem_possibleErr (i : Instr) : 0 ∈ possibleErr i := by
  cases i with
  | b16enc | b16dec | aload32 | aload58 => simp [possibleErr]
  | _ => simp only [possibleErr]; split_ifs <;> simp

/-- The error of a codec command is of a kind that R202 marks for it. -/
theorem codecResult_error_mem {i : Instr} {s : State} {e : ErrKind} (hwf : i.wf = true)
    (h : codecResult i s = some (.error e)) : e.code.toNat ∈ possibleErr i := by
  have hcapacity : e = .capacity → e.code.toNat ∈ [5] := by rintro rfl; decide
  have hformat : e = .format → e.code.toNat ∈ [1] := by rintro rfl; decide
  have hchecksum : e = .format ∨ e = .checksum → e.code.toNat ∈ [1, 2] := by rintro (rfl | rfl) <;> decide
  cases i <;> simp only [codecResult, Option.some.injEq, reduceCtorEq] at h
  case b16enc => exact List.mem_cons_of_mem 0 (hcapacity (b16enc_error h))
  case b16dec => exact List.mem_cons_of_mem 0 (hformat (b16dec_error h))
  case b32enc a pad => exact code_mem_of_bind_eq_error h alpha32_error fun _ hf => hcapacity (b32enc_error hf)
  case b32dec a => exact code_mem_of_bind_eq_error h alpha32_error fun _ hf => hformat (b32dec_error hf)
  case b58enc a => exact code_mem_of_bind_eq_error h (alpha58_error hwf) fun _ hf => hcapacity (b58enc_error hf)
  case b58dec a => exact code_mem_of_bind_eq_error h (alpha58_error hwf) fun _ hf => hformat (b58dec_error hf)
  case b58cenc a => exact code_mem_of_bind_eq_error h (alpha58_error hwf) fun _ hf => hcapacity (b58enc_error hf)
  case b58cdec a => exact code_mem_of_bind_eq_error h (alpha58_error hwf) fun _ hf => hchecksum (b58cdec_error hf)

/-- Settles O10: ERR is 0 after a success, the kind of the codec's result after its failure, and CONFIG after a failed
ALOAD. -/
theorem onlyListedErrorsAreReported : Obligations.OnlyListedErrorsAreReported := by
  intro i s t hwf h
  rcases exec_cases i s with ⟨r, hr, he⟩ | ⟨rfl, he⟩ | ⟨rfl, he⟩ <;> rw [he] at h <;> cases h
  · cases r with
    | ok out => exact zero_mem_possibleErr i
    | error e => exact codecResult_error_mem hwf hr
  · cases hr : aload32 (input s) with
    | ok tab => exact zero_mem_possibleErr .aload32
    | error e => obtain rfl := aload32_error hr; exact (by decide : 3 ∈ possibleErr .aload32)
  · cases hr : aload58 (input s) with
    | ok tab => exact zero_mem_possibleErr .aload58
    | error e => obtain rfl := aload58_error hr; exact (by decide : 3 ∈ possibleErr .aload58)

end Sys2Proof.Machine
end

section
/-! SUPPORT. Several blocks side by side (spec/60_exceptions.md R214): a step of one block leaves the others as they
are. -/

namespace Sys2Proof.Machine

theorem getElem?_stepAt_self (y : System) (k : Nat) : (y.stepAt k)[k]? = y[k]?.map advance :=
  List.getElem?_modify_eq advance k y

theorem getElem?_stepAt_of_ne (y : System) {j k : Nat} (h : j ≠ k) : (y.stepAt j)[k]? = y[k]? :=
  List.getElem?_modify_ne advance y h

/-- Settles O57, by induction on the schedule: its head is either the block's own next step or leaves the block as it
is. -/
theorem instancesDoNotInterfere : Obligations.InstancesDoNotInterfere := by
  intro y schedule k
  induction schedule generalizing y with
  | nil => exact Option.map_id_apply.symm
  | cons j rest ih =>
    rw [System.runSchedule, ih]
    by_cases hj : j = k
    · subst hj
      rw [getElem?_stepAt_self, List.count_cons_self, Option.map_map]
      rfl
    · rw [getElem?_stepAt_of_ne y hj, List.count_cons_of_ne hj]

end Sys2Proof.Machine
end

section
/-! SUPPORT. The end of a host program's run (spec/70_reset_and_hazards.md R244, R246): every queue of lines comes to
its end, and its last line decides the phase in which it does. -/

namespace Sys2Proof.Machine

/-! ### What serving a line does to the queue -/

theorem writeRegIdle_port (s : State) (k : Nat) (v : Word) : (writeRegIdle s k v).port = s.port := by
  unfold writeRegIdle
  split
  · rfl
  · split <;> rfl
  · rfl

theorem writeIn_port (s : State) (i : Nat) (v : Byte) : (writeIn s i v).port = s.port := by
  unfold writeIn
  split
  · split <;> rfl
  · rfl

/-- No access puts a line into the queue or takes one out. -/
@[simp] theorem accessEffect_port (s : State) (op : HostOp) : (accessEffect s op).port = s.port := by
  cases op with
  | wr k v =>
    cases h : s.phase with
    | idle => rw [accessEffect_wr_idle h, writeRegIdle_port]
    | busy => rw [accessEffect_busy h]
  | win i v => exact writeIn_port s i v
  | rd k => rfl
  | rin i => rfl
  | rout i => rfl

theorem serveLine_access_port (s : State) (op : HostOp) : (serveLine s (.access op)).port = s.port := by
  simp [serveLine]

/-- A WAIT served while IDLE is gone, and the block stays IDLE. -/
theorem serveLine_wait_idle {s : State} (h : s.phase = .idle) : serveLine s .wait = serveAccess s (.rd 1) := by
  simp [serveLine, statusBusy_idle h]

/-- A WAIT served while BUSY stands at the head again. -/
theorem serveLine_wait_busy {s : State} (h : s.phase = .busy) :
    serveLine s .wait = serveAccess { s with port := .wait :: s.port } (.rd 1) := by
  simp [serveLine, statusBusy_busy h]

/-- RDOUT puts its unit reads ahead of the coming lines. -/
theorem serveLine_rdout_port (s : State) :
    ∃ ops : List HostOp, (serveLine s .rdout).port = ops.map .access ++ s.port :=
  ⟨(List.range (regReply s 4).toNat).map .rout, by simp [serveLine]⟩

/-- Serving a line may put lines ahead of the coming ones, which stay. -/
theorem serveLine_port (s : State) (l : HostLine) : ∃ lines, (serveLine s l).port = lines ++ s.port := by
  cases l with
  | access op => exact ⟨[], serveLine_access_port s op⟩
  | wait =>
    cases h : s.phase with
    | idle => exact ⟨[], by simp [serveLine_wait_idle h]⟩
    | busy => exact ⟨[.wait], by simp [serveLine_wait_busy h]⟩
  | rdout =>
    obtain ⟨ops, hops⟩ := serveLine_rdout_port s
    exact ⟨_, hops⟩
  | reset => exact ⟨[], rfl⟩

/-! ### Every run ends (R244, R246) -/

/-- Every run of the host program `lines` ends. -/
def RunsEnd (lines : List HostLine) : Prop := ∀ s : State, s.port = lines → ∃ t, s.RunEndsAt t

/-- A run that comes to a state from which the run ends, ends: there or before. -/
theorem exists_runEndsAt_of_stepN {k : Nat} {s u : State} (hu : stepN k s = .next u) (h : ∃ t, u.RunEndsAt t) :
    ∃ t, s.RunEndsAt t := by
  induction k generalizing s with
  | zero => cases hu; exact h
  | succ k ih =>
    obtain ⟨v, hv⟩ := noStepStops s
    by_cases hp : s.port = []
    · exact ⟨s, (State.runEndsAt_of_ended hp).2 rfl⟩
    · exact (ih (by rwa [stepN_succ hv] at hu)).imp fun t => (State.runEndsAt_step hp hv).2

/-- The oldest line is served within two steps: at once, or after the engine step that is due. -/
theorem stepN_serves_line {s : State} {l : HostLine} {rest : List HostLine} (hp : s.port = l :: rest) :
    ∃ k u, stepN k s = .next (serveLine u l) ∧ u.port = rest := by
  cases hs : s.phase with
  | idle => exact ⟨1, _, stepN_one (step_line_idle hs hp), rfl⟩
  | busy =>
    by_cases hd : s.delay = 0
    · obtain ⟨u, hu⟩ := engineStep_next s
      have hend := engineStep_endsKeepingInputs hu
      have hstep := step_line_idle hend.phase (hend.port.trans hp)
      exact ⟨2, _, by rw [stepN_succ ((step_engine hs hd).trans hu), stepN_one hstep], rfl⟩
    · exact ⟨1, _, stepN_one (step_line_busy hs hd hp), rfl⟩

/-- A program's runs end if they do once its first line is served. -/
theorem RunsEnd.cons {l : HostLine} {rest : List HostLine}
    (h : ∀ u : State, u.port = rest → ∃ t, (serveLine u l).RunEndsAt t) : RunsEnd (l :: rest) := fun _ hp =>
  have ⟨_, u, hstep, hu⟩ := stepN_serves_line hp
  exists_runEndsAt_of_stepN hstep (h u hu)

theorem RunsEnd.access {rest : List HostLine} (h : RunsEnd rest) (op : HostOp) : RunsEnd (.access op :: rest) :=
  .cons fun u hu => h _ ((serveLine_access_port u op).trans hu)

theorem RunsEnd.accesses {rest : List HostLine} (h : RunsEnd rest) (ops : List HostOp) :
    RunsEnd (ops.map .access ++ rest) := by
  induction ops with
  | nil => exact h
  | cons op ops ih => exact ih.access op

/-- Every run ends, by induction on the lines: a WAIT ends because the command in flight does, and the reads of an
RDOUT are finitely many. -/
theorem runsEnd (lines : List HostLine) : RunsEnd lines := by
  induction lines with
  | nil => exact fun s hp => ⟨s, (State.runEndsAt_of_ended hp).2 rfl⟩
  | cons l rest ih =>
    cases l with
    | access op => exact ih.access op
    | wait =>
      intro s hp
      obtain ⟨k, -, t, hstep, -, hport, -⟩ := waitEndsWhenIdle s rest hp
      exact exists_runEndsAt_of_stepN hstep (ih t hport)
    | rdout =>
      refine .cons fun u hu => ?_
      obtain ⟨ops, hops⟩ := serveLine_rdout_port u
      exact ih.accesses ops _ (hu ▸ hops)
    | reset => exact .cons fun u hu => ih (resetInput u) hu

/-! ### The last line decides the phase at the end (R246) -/

/-- What every step of a run keeps holds at its end, where no line is left. -/
theorem State.RunEndsAt.of_invariant {P : State → Prop} {s t : State} (h : s.RunEndsAt t)
    (hstep : ∀ {s u}, s.port ≠ [] → step s = .next u → P s → P u) (hs : P s) : P t ∧ t.port = [] := by
  obtain ⟨fuel, hf⟩ := h
  induction fuel generalizing s with
  | zero =>
    have hp : s.port = [] := by
      by_contra hp
      simp [runToEnd, hp] at hf
    obtain rfl := (State.runEndsAt_of_ended hp).1 ⟨0, hf⟩
    exact ⟨hs, hp⟩
  | succ fuel ih =>
    by_cases hp : s.port = []
    · obtain rfl := (State.runEndsAt_of_ended hp).1 ⟨fuel + 1, hf⟩
      exact ⟨hs, hp⟩
    · obtain ⟨u, hu⟩ := noStepStops s
      exact ih (hstep hp hu hs) (by rwa [runToEnd_succ hp hu] at hf)

/-- `l` is the last line of the program in `s`, or it has executed and left the phase `p`. -/
def LastLineOrPhase (l : HostLine) (p : Phase) (s : State) : Prop :=
  (∃ before, s.port = before ++ [l]) ∨ s.port = [] ∧ s.phase = p

/-- Served with no line after it, `l` leaves the phase `p`, or it stays. -/
def LastServed (l : HostLine) (p : Phase) : Prop := ∀ s : State, s.port = [] → LastLineOrPhase l p (serveLine s l)

/-- With a line left, a step serves the oldest one, or it is the engine's and the lines stay. -/
theorem step_line_cases {s t : State} {l : HostLine} {rest : List HostLine} (hp : s.port = l :: rest)
    (h : step s = .next t) : t.port = s.port ∨ ∃ u : State, u.port = rest ∧ t = serveLine u l := by
  rcases step_cases h with ⟨-, rfl⟩ | ⟨-, -, rfl⟩ | ⟨-, -, he⟩
  · exact .inr ⟨_, rfl, serve_cons hp⟩
  · exact .inr ⟨_, rfl, serve_cons (s := passTime s) hp⟩
  · exact .inl (engineStep_endsKeepingInputs he).port

theorem LastServed.step {l : HostLine} {p : Phase} (hl : LastServed l p) {s t : State} (hne : s.port ≠ [])
    (hst : step s = .next t) (hs : LastLineOrPhase l p s) : LastLineOrPhase l p t := by
  obtain ⟨before, hp⟩ := hs.resolve_right fun hended => hne hended.1
  cases before with
  | nil =>
    rcases step_line_cases hp hst with hport | ⟨u, hu, rfl⟩
    · exact .inl ⟨[], hport.trans hp⟩
    · exact hl u hu
  | cons m before =>
    rcases step_line_cases hp hst with hport | ⟨u, hu, rfl⟩
    · exact .inl ⟨m :: before, hport.trans hp⟩
    · obtain ⟨lines, hlines⟩ := serveLine_port u m
      exact .inl ⟨lines ++ before, by simpa [hu] using hlines⟩

/-- A program whose last line leaves the phase `p` ends in it. -/
theorem LastServed.phase_end {l : HostLine} {p : Phase} (hl : LastServed l p) {s t : State} {before : List HostLine}
    (hp : s.port = before ++ [l]) (h : s.RunEndsAt t) : t.phase = p := by
  obtain ⟨hinv, hended⟩ := h.of_invariant hl.step (.inl ⟨before, hp⟩)
  rcases hinv with ⟨lines, hport⟩ | ⟨-, hphase⟩
  · simp [hended] at hport
  · exact hphase

/-- A CMD write leaves BUSY, whether it is accepted or lost (R22, R59). -/
theorem lastServed_cmdWrite (v : Word) : LastServed (.access (.wr 0 v)) .busy := by
  intro s hs
  refine .inr ⟨(serveLine_access_port s _).trans hs, ?_⟩
  cases h : s.phase with
  | idle => rw [serveLine, serveAccess_phase, accessEffect_wr_idle h, writeRegIdle_cmd, startCommand_phase]
  | busy => rw [serveLine, serveAccess_phase, accessEffect_busy h, h]

/-- A WAIT leaves IDLE, or it stays (R94). -/
theorem lastServed_wait : LastServed .wait .idle := by
  intro s hs
  cases h : s.phase with
  | idle => exact .inr (by simp [serveLine_wait_idle h, accessEffect, hs, h])
  | busy => exact .inl ⟨[], by simp [serveLine_wait_busy h, hs]⟩

/-- Settles O50: a last CMD write or WAIT keeps its place until it is served, and the run ends in the phase it
leaves. -/
theorem runEndsWithItsLastLine : Obligations.RunEndsWithItsLastLine := by
  refine fun s => ⟨runsEnd s.port s rfl, fun before v t hp ht => ⟨?_, ?_⟩, fun before t hp ht => ?_⟩
  · exact (lastServed_cmdWrite v).phase_end hp ht
  · rintro ⟨u, hu, hidle⟩
    exact nomatch hidle.symm.trans ((lastServed_cmdWrite v).phase_end hp hu)
  · have hidle : t.phase = .idle := lastServed_wait.phase_end hp ht
    exact ⟨hidle, t, ht, hidle⟩

end Sys2Proof.Machine
end
